-- ==== Sys2Proof/Word.lean ====
section
/-! DEFINITION. The word and byte types of the block.
Every register and every datapath value is an unsigned 32-bit vector (R10, R14). -/

namespace Sys2Proof

/-- A W-bit value, W = DATA_W = 32 (R10). Bit 0 is the least significant bit (R14). -/
abbrev Word := BitVec 32

/-- One byte of the table buffer (R81). -/
abbrev Byte := BitVec 8

end Sys2Proof
end

