-- ==== Sys2Proof/Config.lean ====
section
/-! DEFINITION. The implementation parameters of R13: the three fixed widths, and the four parameters
the spec leaves OPEN, as one record of plain data that a machine carries and no step changes. -/

namespace Sys2Proof

/-- DATA_W: the datapath width W (R10). -/
def dataW : Nat := 32

/-- N_MAX = W - 2: the largest legal grade (R11). -/
def nMax : Nat := dataW - 2

/-- ADDR_W: the address width A of the table-buffer write port (R12). -/
def addrW : Nat := 32

/-- The parameters R13 leaves open. A claim about every state is a claim about every value of these. -/
structure Config where
  /-- BASE divided by 0x40: BASE is a 32-bit bus address and a multiple of 0x40 (R13, R71). -/
  windowIndex : BitVec 26
  /-- TableMemAdmits, as the inclusive address ranges the platform accepts a cell write in. Every
  predicate on 32-bit addresses is such a list (R13, R83). -/
  admits : List (Nat × Nat)
  /-- LANES - 1: LANES is at least 1 and only the order of cell writes could depend on it (R13, R217). -/
  extraLanes : Nat
  /-- CHECK_PRECOND: false is 0, the default (R13). -/
  checkPrecond : Bool
deriving DecidableEq, Repr

/-- BASE / 0x40 of the platform the machine sits in: OPEN (R13), so no value is given. -/
opaque Config.openWindowIndex : BitVec 26

/-- TableMemAdmits of that platform: OPEN (R13), so no value is given. -/
opaque Config.openAdmits : List (Nat × Nat)

/-- LANES - 1 of that implementation: OPEN (R13), so no value is given. -/
opaque Config.openExtraLanes : Nat

/-- The parameters of the machine that reset describes: the open ones without a value, CHECK_PRECOND at its
default 0 (R13). -/
def Config.platform : Config where
  windowIndex := Config.openWindowIndex
  admits := Config.openAdmits
  extraLanes := Config.openExtraLanes
  checkPrecond := false

end Sys2Proof
end

