-- ==== Sys2Proof/Syntax.lean ====
section
/-! DEFINITION. The commands of the GF2N-CORE command set, one constructor for each row of the opcode map
(R115). No command carries an operand, an immediate or a mode bit (R113). -/

namespace Sys2Proof

/-- The six commands (R115). -/
inductive Instr where
  /-- NOP: run the lifecycle and nothing else (R247). -/
  | nop
  /-- ADD: RESULT becomes lf XOR lg (R141). -/
  | add
  /-- SUB: RESULT becomes lf XOR lg (R142). -/
  | sub
  /-- MUL: RESULT becomes lf times lg reduced modulo lip at grade ln (R155). -/
  | mul
  /-- IRRED: RESULT becomes the ROM's modulus for grade ln (R192). -/
  | irred
  /-- TABLE: the multiplication table of grade ln is written at ltb (R212). -/
  | table
deriving DecidableEq, Repr

end Sys2Proof
end

