-- ==== Sys2Proof/Decode.lean ====
section
/-! DEFINITION. The command word CMD32: decoding, total on every 32-bit word (R119), and the encoder. -/

namespace Sys2Proof

/-- Why a command word is illegal (R116). -/
inductive IllegalWord where
  /-- RSVD, bits 31:4, is not 0 (R111, R112). -/
  | reservedBits
  /-- RSVD is 0 and OP is in 0x6 to 0xF (R115). -/
  | reservedOpcode
deriving DecidableEq, Repr

/-- What a command word decodes to (R119). -/
inductive Decoded where
  | command (i : Instr)
  | illegal (why : IllegalWord)
deriving DecidableEq, Repr

/-- OP, bits 3:0 of the command word (R111). -/
def opField (w : Word) : BitVec 4 := w.extractLsb' 0 4

/-- RSVD, bits 31:4 of the command word (R111). -/
def rsvdField (w : Word) : BitVec 28 := w.extractLsb' 4 28

/-- The operation an OP value names, where it names one (R115). -/
def opcodeMap (op : BitVec 4) : Option Instr :=
  match op.toNat with
  | 0 => some .nop
  | 1 => some .add
  | 2 => some .sub
  | 3 => some .mul
  | 4 => some .irred
  | 5 => some .table
  | _ => none

/-- `decode` of R119: RSVD first, then OP. -/
def decode (w : Word) : Decoded :=
  if rsvdField w = 0 then
    match opcodeMap (opField w) with
    | some i => .command i
    | none => .illegal .reservedOpcode
  else .illegal .reservedBits

/-- The OP value of a command (R115). -/
def opcode (i : Instr) : BitVec 4 :=
  match i with
  | .nop => 0x0
  | .add => 0x1
  | .sub => 0x2
  | .mul => 0x3
  | .irred => 0x4
  | .table => 0x5

/-- The command word: RSVD = 0 above OP (R111). -/
def encode (i : Instr) : Word := 0#28 ++ opcode i

/-- The command an opcode-table word of `nbits` bits stands for. A command is one 32-bit word (R110), so a
number that does not fit in 32 bits is no command word. -/
def decodeTableWord (nbits w : Nat) : Option Instr :=
  if w % 2 ^ nbits < 2 ^ 32 then
    match decode (BitVec.ofNat 32 (w % 2 ^ nbits)) with
    | .command i => some i
    | .illegal _ => none
  else none

end Sys2Proof
end

