-- ==== Sys2Proof/Machine/HostProgram.lean ====
section
/-! DEFINITION. The host's side of the interface: the nine registers of the window and their offsets (R71), one
host access (R72, R81, R88, R89), and the host assembler with its pseudo-instructions (R125 to R127). -/

namespace Sys2Proof.Machine

/-- The nine host-visible registers (R31). -/
inductive Reg where
  | cmd | status | f | g | ip | n | result | tbase | caps
deriving DecidableEq, Repr

/-- `offset(reg)`: the register's byte offset from BASE (R71). -/
def Reg.offset (r : Reg) : Nat :=
  match r with
  | .cmd => 0x00
  | .status => 0x04
  | .f => 0x08
  | .g => 0x0C
  | .ip => 0x10
  | .n => 0x14
  | .result => 0x18
  | .tbase => 0x1C
  | .caps => 0x20

/-- The register at an offset; none at a reserved offset (R71, R74). -/
def regAt (off : Nat) : Option Reg :=
  match off with
  | 0x00 => some .cmd
  | 0x04 => some .status
  | 0x08 => some .f
  | 0x0C => some .g
  | 0x10 => some .ip
  | 0x14 => some .n
  | 0x18 => some .result
  | 0x1C => some .tbase
  | 0x20 => some .caps
  | _ => none

/-- One item of the host's program: one host access, or POLL, which is one `RD STATUS` access each time its turn
comes until the value read has DONE = 1 (R72, R127). Widths are in bytes. -/
inductive HostOp where
  /-- `HostWrite(off, v)` (R75). -/
  | write (off width : Nat) (v : Word)
  /-- `HostRead(off)` (R77). -/
  | read (off width : Nat)
  /-- `POLL` (R127). -/
  | poll
  /-- A host read of memory at a bus address: `RDMEM` when the width is 4 (R81, R88, R125). -/
  | readMem (addr : Word) (width : Nat)
  /-- A host write of memory at a bus address, little-endian (R81, R89). -/
  | writeMem (addr : Word) (width : Nat) (v : Word)
deriving DecidableEq, Repr

/-- `<value>` of a WR line: a number, or a command mnemonic in the place of a CMD value (R125, R126). DESIGN CHOICE: the spec gives
a mnemonic no meaning as the value of another register, and the model takes it as its command word there too (Log 19). -/
inductive Value where
  | num (v : Word)
  | mnemonic (i : Instr)
deriving DecidableEq, Repr

/-- The 32-bit word a `<value>` stands for (R126). -/
def Value.word (v : Value) : Word :=
  match v with
  | .num w => w
  | .mnemonic i => encode i

/-- One line of the host assembler: the three forms of R125 and the pseudo-instructions of R127. -/
inductive Line where
  | wr (r : Reg) (v : Value)
  | rd (r : Reg)
  | rdmem (addr : Word)
  | cmd (i : Instr)
  | poll
  | clrst
  /-- `ADD% f, g` -/
  | addCall (f g : Word)
  /-- `SUB% f, g` -/
  | subCall (f g : Word)
  /-- `MUL% f, g, ip, n` -/
  | mulCall (f g ip n : Word)
  /-- `IRRED% n` -/
  | irredCall (n : Word)
  /-- `TABLE% n, base` -/
  | tableCall (n base : Word)
deriving DecidableEq, Repr

/-- `WR <reg>, <value>` is the pair (offset, value) (R125). -/
def writeReg (r : Reg) (v : Word) : HostOp := .write r.offset 4 v

/-- `RD <reg>` is the offset (R125). -/
def readReg (r : Reg) : HostOp := .read r.offset 4

/-- `CMD <mnemonic>` is `WR CMD, <mnemonic>` (R127). -/
def cmdWrite (i : Instr) : HostOp := writeReg .cmd (encode i)

/-- The host accesses a line stands for: the exact expansions of R127. DESIGN CHOICE: `WR <reg>, <mnemonic>` with a register other
than CMD writes the mnemonic's command word (Log 19). -/
def Line.expand (l : Line) : List HostOp :=
  match l with
  | .wr r v => [writeReg r v.word]
  | .rd r => [readReg r]
  | .rdmem a => [.readMem a 4]
  | .cmd i => [cmdWrite i]
  | .poll => [.poll]
  | .clrst => [writeReg .status 0x0000003E]
  | .addCall f g => [writeReg .f f, writeReg .g g, cmdWrite .add, .poll, readReg .result]
  | .subCall f g => [writeReg .f f, writeReg .g g, cmdWrite .sub, .poll, readReg .result]
  | .mulCall f g ip n => [writeReg .f f, writeReg .g g, writeReg .ip ip, writeReg .n n, cmdWrite .mul, .poll, readReg .result]
  | .irredCall n => [writeReg .n n, cmdWrite .irred, .poll, readReg .result]
  | .tableCall n base => [writeReg .n n, writeReg .tbase base, cmdWrite .table, .poll]

/-- A host program: the accesses of its lines in order (R125). -/
def assemble (lines : List Line) : List HostOp := lines.flatMap Line.expand

end Sys2Proof.Machine
end

