-- ==== Sys2Proof/Machine/State.lean ====
section
/-! DEFINITION. The state of the block and of the host that drives it, the reasons a step can stop, and the state
after reset. Everything is plain data. -/

namespace Sys2Proof.Machine

/-- Memory: (address, byte) pairs in strictly rising address order. An address not listed holds no known byte. -/
abbrev Memory := List Host.Cell

/-- The phase (R49). -/
inductive Phase where
  | idle
  | run (op : Instr)
deriving DecidableEq, Repr

/-- STATUS bits 5 to 1 (R39). Bit 0, BUSY, is the exposed copy of the phase (R40) and is computed from it; bits 31:6
are reserved and hold nothing (R46). -/
structure Status where
  done : Bool
  ill : Bool
  bsyerr : Bool
  perr : Bool
  berr : Bool
deriving DecidableEq, Repr

/-- The set P of table cells still to be written (R52), in one canonical form: the empty set, or the grid of grade `n`
without the cells already written. `written` holds the row-major numbers r * 2^n + c of those cells, rising; a set that
has lost its last cell is `empty`. -/
inductive CellSet where
  | empty
  | grid (n : Nat) (written : List Nat)
deriving DecidableEq, Repr

/-- The draw of a host read that races with a running TABLE (R88). -/
inductive Draw where
  | old
  | new
deriving DecidableEq, Repr

/-- Which agent moves next (R79, R240, R300), with the open choices that move makes. -/
inductive Turn where
  /-- The host takes its next access; a racing read returns the old or the new word as `draw` says (R88). -/
  | host (draw : Draw)
  /-- The block takes a step; a TABLE cell step takes the cell `pick`, if that cell is still pending (R214). -/
  | block (pick : Nat × Nat)
  /-- The platform resets the block (R290). -/
  | reset
deriving DecidableEq, Repr

/-- The whole state: the parameters, the registers of R31, the internal state of R49 to R52 and R58, the memory that
holds the table buffer, and the two agents' plain-data inputs. -/
structure State where
  /-- the parameters of R13; no step changes them -/
  cfg : Config
  /-- F (R32) -/
  f : Word
  /-- G (R33) -/
  g : Word
  /-- IP (R34) -/
  ip : Word
  /-- N (R35) -/
  n : Word
  /-- RESULT (R36) -/
  result : Word
  /-- TBASE, bits 1:0 hardwired 0 (R37) -/
  tbase : Word
  /-- STATUS bits 5:1 (R39) -/
  status : Status
  /-- the phase, and with it STATUS.BUSY (R40, R49) -/
  phase : Phase
  /-- the opcode latch (R50) -/
  lop : BitVec 4
  /-- the latch of F (R50) -/
  lf : Word
  /-- the latch of G (R50) -/
  lg : Word
  /-- the latch of IP (R50) -/
  lip : Word
  /-- the latch of N (R50) -/
  ln : Word
  /-- the latch of TBASE (R50) -/
  ltb : Word
  /-- the multiplier's accumulator (R51) -/
  acc : Word
  /-- the multiplier's shifted copy of f (R51) -/
  fw : Word
  /-- the multiplier's shifted copy of g (R51) -/
  gw : Word
  /-- the multiplier's iteration count, 0 to W (R51) -/
  k : Nat
  /-- TABLE's modulus (R52) -/
  tip : Word
  /-- P, the cells still to be written (R52) -/
  pending : CellSet
  /-- the precondition check failed (R58) -/
  pf : Bool
  /-- host memory, which holds the table buffer (R70, R80) -/
  mem : Memory
  /-- the memory as it was at the last acceptance: the model's own field, for the old word of R88 -/
  memAtAccept : Memory
  /-- the cells of the running TABLE whose new word a racing read has shown, by their numbers r * 2^n + c, rising (R88): the
  model's own field -/
  shown : List Nat
  /-- the host's remaining program (R72): the model's own field -/
  host : List HostOp
  /-- which agent moves at each coming step (R300): the model's own field -/
  sched : List Turn
  /-- the cell the next cell step takes if it is pending (R214): the model's own field -/
  pick : Nat × Nat
  /-- the draw of the next racing host read (R88): the model's own field -/
  draw : Draw
  /-- the values the host has read, the latest first (R77, R125): the model's own field -/
  reads : List Word
deriving DecidableEq, Repr

/-- Why the machine stops with a fault. -/
inductive Fault where
  /-- A host read of a byte that nothing has written: the spec does not give the initial contents of host memory.
  Raised by the memory reads of `hostAccess`. Safe: the model stops where the hardware would go on. -/
  | unwrittenMemory (addr : Nat)
deriving DecidableEq, Repr

/-- Why a host access or a command has no meaning. -/
inductive Refusal where
  /-- A window access that is not a whole aligned 32-bit word (R73). Raised by `hostAccess`. Safe: the spec gives such an
  access no value and no effect. -/
  | partialAccess
  /-- A window offset above 0x3C (R72). Raised by `hostAccess`. Safe: there is no such window access. -/
  | outsideWindow
  /-- A memory access of the host that is not a byte, an aligned half or an aligned word (R81, R88). Raised by
  `hostAccess`. Safe: the spec gives only those accesses. -/
  | unalignedMemory
  /-- A host write to a byte of the table while TABLE runs (R89). Raised by `hostAccess`. Safe: the spec refuses it. -/
  | runningTableWrite
  /-- A command with no meaning in the model, by its mnemonic. Raised by no arm of `exec`. Safe. -/
  | notModelled (mnemonic : String)
deriving DecidableEq, Repr

/-- STATUS.BUSY: 1 exactly when the phase is not IDLE (R40). -/
def State.busy (s : State) : Bool := s.phase != .idle

/-- All STATUS bits 0 (R57). -/
def Status.clear : Status := ⟨false, false, false, false, false⟩

/-- The state right after reset of a machine with the given parameters: every register, latch and working register 0,
STATUS 0, phase IDLE, P empty, pf 0 (R57). No memory byte is known, the host has no program and has read nothing. -/
def State.launch (c : Config) : State where
  cfg := c
  f := 0
  g := 0
  ip := 0
  n := 0
  result := 0
  tbase := 0
  status := .clear
  phase := .idle
  lop := 0
  lf := 0
  lg := 0
  lip := 0
  ln := 0
  ltb := 0
  acc := 0
  fw := 0
  gw := 0
  k := 0
  tip := 0
  pending := .empty
  pf := false
  mem := []
  memAtAccept := []
  shown := []
  host := []
  sched := []
  pick := (0, 0)
  draw := .old
  reads := []

/-- The machine right after reset (R57, R290), its open parameters without a value. -/
def State.reset : State := State.launch Config.platform

end Sys2Proof.Machine
end

