-- ==== Sys2Proof/Machine/Flags.lean ====
section
/-! DEFINITION. STATUS, the block's only flags (R55): its value as a word (R77), write-1-to-clear (R75), and the CAPS
constant (R47). -/

namespace Sys2Proof.Machine

/-- STATUS as the host reads it: bit 0 BUSY, 1 DONE, 2 ILL, 3 BSYERR, 4 PERR, 5 BERR, the rest 0 (R39, R77). -/
def statusWord (busy : Bool) (st : Status) : Word :=
  (BitVec.ofBool st.berr ++ BitVec.ofBool st.perr ++ BitVec.ofBool st.bsyerr ++ BitVec.ofBool st.ill
    ++ BitVec.ofBool st.done ++ BitVec.ofBool busy).setWidth 32

/-- A host write of `v` to STATUS: each of DONE, ILL, BSYERR, PERR and BERR is cleared where its bit of `v` is 1; bit 0
and bits 31:6 of `v` are ignored (R75). -/
def Status.clearBits (st : Status) (v : Word) : Status where
  done := st.done && !v.getLsbD 1
  ill := st.ill && !v.getLsbD 2
  bsyerr := st.bsyerr && !v.getLsbD 3
  perr := st.perr && !v.getLsbD 4
  berr := st.berr && !v.getLsbD 5

/-- CAPS: DATA_W in bits 7:0, N_MAX in bits 15:8, CHECK_PRECOND in bit 16 (R47). -/
def capsWord (c : Config) : Word :=
  (BitVec.ofBool c.checkPrecond ++ BitVec.ofNat 8 nMax ++ BitVec.ofNat 8 dataW).setWidth 32

end Sys2Proof.Machine
end

