-- ==== Sys2Proof/Machine/Operands.lean ====
section
/-! DEFINITION. The operands of a command: the latches taken at acceptance (R50, R113, R114), the precondition over
them (R264), and the masks and bounds of the grade (R11, R16). -/

namespace Sys2Proof.Machine

/-- Acceptance copies the opcode and every operand register into its latch (R50, R241). The memory the table buffer held
then is kept beside them for R88, and no cell has been shown as new. -/
def latch (op : Instr) (s : State) : State :=
  { s with
    lop := opcode op, lf := s.f, lg := s.g, lip := s.ip, ln := s.n, ltb := s.tbase, memAtAccept := s.mem, shown := [] }

/-- The latched grade, an unsigned integer from 0 to 2^32 - 1 (R114). -/
def State.grade (s : State) : Nat := s.ln.toNat

/-- The latched table base, a byte address (R114). -/
def State.tableBase (s : State) : Nat := s.ltb.toNat

/-- The grade is in the legal range, 1 to N_MAX (R11). -/
def legalGrade (n : Nat) : Bool := 1 ≤ n && n ≤ nMax

/-- `mask(n)`: bits 0 to min(n, W) - 1 are 1 and the others 0 (R16). -/
def mask (n : Nat) : Word := BitVec.ofNat 32 (2 ^ min n dataW - 1)

/-- `Precond(op, n, ip)` (R264). -/
def precond (op : Instr) (n : Nat) (ip : Word) : Bool :=
  match op with
  | .nop => true
  | .add => true
  | .sub => true
  | .mul => legalGrade n && ip.getLsbD n
  | .irred => legalGrade n
  | .table => legalGrade n

/-- `Valid(n, ip, f, g)`: the operands the source's guarantees hold for (R22). -/
def validOperands (n : Nat) (ip f g : Word) : Bool :=
  legalGrade n && ip.getLsbD n && ip.toNat < 2 ^ (n + 1) && f.toNat < 2 ^ n && g.toNat < 2 ^ n

/-- What the host's write to TBASE stores: bits 1:0 are hardwired 0 (R37). -/
def tbaseStored (v : Word) : Word := v &&& 0xFFFFFFFC#32

end Sys2Proof.Machine
end

