-- ==== Sys2Proof/Machine/Ops.lean ====
section
/-! DEFINITION. The shared operations: memory by bytes and little-endian words, the register window's place in the bus
address space, raising a condition, and the command lifecycle of acceptance, block step and completion. -/

namespace Sys2Proof.Machine

/-- The canonical form of memory: addresses strictly rising, all below 2^32 (R12). An unlisted address reads as no value,
so no entry can equal it. -/
abbrev Memory.wf (m : Memory) : Prop :=
  m.Pairwise (fun x y => x.1 < y.1) ∧ ∀ x ∈ m, x.1 < 2 ^ addrW

/-- The byte at an address, if anything has written it. -/
def Memory.read (m : Memory) (a : Nat) : Option Byte :=
  match m with
  | [] => none
  | (b, v) :: rest => if b = a then some v else Memory.read rest a

/-- Store one byte, keeping the addresses rising. -/
def Memory.write (m : Memory) (a : Nat) (v : Byte) : Memory :=
  match m with
  | [] => [(a, v)]
  | (b, u) :: rest =>
    if a < b then (a, v) :: (b, u) :: rest
    else if a = b then (a, v) :: rest
    else (b, u) :: Memory.write rest a v

/-- The little-endian value of the `width` bytes at `a`, zero-extended, if all of them are known (R81). -/
def Memory.readLE (m : Memory) (a width : Nat) : Option Word :=
  match width with
  | 0 => some 0
  | w + 1 =>
    match m.read a, Memory.readLE m (a + 1) w with
    | some lo, some hi => some (hi <<< 8 ||| lo.setWidth 32)
    | _, _ => none

/-- Store the low `width` bytes of `v` at `a`, the least significant byte first (R81). -/
def Memory.writeLE (m : Memory) (a width : Nat) (v : Word) : Memory :=
  match width with
  | 0 => m
  | w + 1 => Memory.writeLE (m.write a (v.setWidth 8)) (a + 1) w (v >>> 8)

/-- Bytes `off` to `off + width - 1` of a word, zero-extended (R81). -/
def extractBytes (v : Word) (off width : Nat) : Word := (v >>> (8 * off)) &&& mask (8 * width)

/-- BASE, the bus address of the register window (R71). -/
def windowBase (c : Config) : Nat := c.windowIndex.toNat * 0x40

/-- TableMemAdmits (R13). -/
def tableMemAdmits (c : Config) (a : Nat) : Bool :=
  c.admits.any fun r => r.1 ≤ a && a ≤ r.2

/-- The window offset at a bus address, where the address lies in the register window (R70, R71). -/
def windowOffset (c : Config) (a : Nat) : Option Nat :=
  if windowBase c ≤ a ∧ a ≤ windowBase c + 0x3F then some (a - windowBase c) else none

/-- The four error conditions (R261). -/
inductive Cond where
  | ill | bsyerr | perr | berr
deriving DecidableEq, Repr

/-- The completion step's last line, for every command: PERR from pf, DONE set, BUSY cleared with the phase, pf cleared
(R245). -/
def complete (s : State) : State :=
  { s with
    status := { s.status with done := true, perr := s.status.perr || s.pf }
    phase := .idle
    pf := false }

/-- `raise` (R262): ILL and BSYERR set their bits at once, PERR is held in pf until completion, BERR empties P and completes
the TABLE (R216). No state is saved, and no control is transferred (R268). -/
def raise (c : Cond) (s : State) : State :=
  match c with
  | .ill => { s with status := { s.status with ill := true, done := true } }
  | .bsyerr => { s with status := { s.status with bsyerr := true } }
  | .perr => { s with pf := true }
  | .berr => complete { s with status := { s.status with berr := true }, pending := .empty }

/-- Acceptance of a legal command in the host's CMD write (R241): latch, DONE cleared, BUSY set with the phase, pf from the
precondition check; `init` sets up the command's working registers when pf = 0. -/
def accept (op : Instr) (init : State → State) (s : State) : State :=
  let t := { latch op s with status := { s.status with done := false }, phase := .run op, pf := false }
  if t.cfg.checkPrecond && !precond op t.grade t.lip then raise .perr t else init t

/-- One block step of a running command (R243, R244): with pf = 0 its work step while it has one, else completion, which first
does the command's own `finish` (R245); with pf = 1 completion at once. -/
def blockStep (work : State → Option State) (finish : State → State) (s : State) : State :=
  if s.pf then complete s
  else
    match work s with
    | some t => t
    | none => complete (finish s)

/-- What a command does in each phase: it is accepted while the block is idle (R241), takes its block steps while it runs
(R243 to R245), and is lost with BSYERR while another command runs (R242). -/
def lifecycle (op : Instr) (init : State → State) (work : State → Option State) (finish : State → State)
    (s : State) : Host.Outcome State Fault Refusal :=
  match s.phase with
  | .idle => .next (accept op init s)
  | .run running =>
    if running = op then .next (blockStep work finish s) else .next (raise .bsyerr s)

/-- The command has no work steps (R243). -/
def noWork (_ : State) : Option State := none

/-- The completion of ADD, SUB, MUL and IRRED writes RESULT (R245). -/
def writeResult (v : Word) (s : State) : State := { s with result := v }

/-- The host has read `v` (R72). -/
def logRead (v : Word) (s : State) : State := { s with reads := v :: s.reads }

/-- A reset event (R290, R291): every piece of block state gets its reset value. The parameters, host memory, the host's
program and what it has read, and the coming turns are outside the block. -/
def platformReset (s : State) : State :=
  { State.launch s.cfg with mem := s.mem, host := s.host, sched := s.sched, reads := s.reads }

end Sys2Proof.Machine
end

