-- ==== Sys2Proof/Machine/Control.lean ====
section
/-! DEFINITION. The command NOP (R247). -/

namespace Sys2Proof.Machine

/-- NOP: the lifecycle and nothing else; the latches are still loaded (R247). -/
def execNop (s : State) : Host.Outcome State Fault Refusal :=
  lifecycle .nop id noWork id s

end Sys2Proof.Machine
end

