-- ==== Sys2Proof/Machine/FieldArith.lean ====
section
/-! DEFINITION. The gf2n_adder, the gf2n_reduction_engine and the carry-less multiplier, and the commands ADD, SUB and MUL
(R140 to R164). -/

namespace Sys2Proof.Machine

/-- The gf2n_adder (R140). -/
def gf2nAdd (a b : Word) : Word := a ^^^ b

/-- The source's `subtract`, defined identically to `add` (R142). -/
def gf2nSub (a b : Word) : Word := gf2nAdd a b

/-- The gf2n_reduction_engine: fw times x modulo ip, for a grade n of at least 1 (R152). -/
def reduceStep (fw ip : Word) (n : Nat) : Word :=
  ((fw <<< 1) &&& mask n) ^^^ (if fw.getLsbD (n - 1) then ip &&& mask n else 0)

/-- Step 2a: add fw into the accumulator where the current coefficient of g is 1 (R151). -/
def accumulate (acc fw gw : Word) : Word := if gw.getLsbD 0 then gf2nAdd acc fw else acc

/-- K = min(n, W), the number of iterations (R153). -/
def iterations (n : Nat) : Nat := min n dataW

/-- `j` iterations of the multiply from the working registers acc, fw and gw; the accumulator at the end (R151, R154). -/
def mulLoop (ip : Word) (n : Nat) (j : Nat) (acc fw gw : Word) : Word :=
  match j with
  | 0 => acc
  | j + 1 => mulLoop ip n j (accumulate acc fw gw) (reduceStep fw ip n) (gw >>> 1)

/-- The multiply as one pure function (R154). -/
def multiply (f g ip : Word) (n : Nat) : Word := mulLoop ip n (iterations n) 0 f g

/-- MUL's working registers at acceptance (R150). -/
def mulInit (s : State) : State := { s with acc := 0, fw := s.lf, gw := s.lg, k := 0 }

/-- One iteration of MUL on the working registers (R151). -/
def mulIteration (s : State) : State :=
  { s with
    acc := accumulate s.acc s.fw s.gw
    fw := reduceStep s.fw s.lip s.grade
    gw := s.gw >>> 1
    k := s.k + 1 }

/-- MUL's work step, while k < min(ln, W) (R243). -/
def mulWork (s : State) : Option State :=
  if s.k < iterations s.grade then some (mulIteration s) else none

/-- ADD (R141). -/
def execAdd (s : State) : Host.Outcome State Fault Refusal :=
  lifecycle .add id noWork (fun s => writeResult (gf2nAdd s.lf s.lg) s) s

/-- SUB: GF(2) subtraction is addition (R142). -/
def execSub (s : State) : Host.Outcome State Fault Refusal :=
  lifecycle .sub id noWork (fun s => writeResult (gf2nSub s.lf s.lg) s) s

/-- MUL (R155). -/
def execMul (s : State) : Host.Outcome State Fault Refusal :=
  lifecycle .mul mulInit mulWork (fun s => writeResult s.acc s) s

end Sys2Proof.Machine
end

