-- ==== Sys2Proof/Machine/Rom.lean ====
section
/-! DEFINITION. The irreducible_poly_rom and the command IRRED (R190 to R196). -/

namespace Sys2Proof.Machine

/-- The ROM's modulus for grade n: x + 1, and x^n + x + 1 where 1 < n < W (R190, R191). -/
def ipRom (n : Nat) : Word :=
  if 1 < n ∧ n < dataW then 0x00000003#32 ||| (1#32 <<< n) else 0x00000003#32

/-- IRRED (R192). -/
def execIrred (s : State) : Host.Outcome State Fault Refusal :=
  lifecycle .irred id noWork (fun s => writeResult (ipRom s.grade) s) s

end Sys2Proof.Machine
end

