-- ==== Sys2Proof/Machine/Table.lean ====
section
/-! DEFINITION. The multiplication_table_datapath and the command TABLE (R210 to R223), with the cell layout and the
admission of cell writes (R80 to R83). -/

namespace Sys2Proof.Machine

/-- The byte address of cell (r, c) of a table of grade n at base b, a mathematical integer (R80). -/
def cellAddr (b n r c : Nat) : Nat := b + 4 * (r * 2 ^ n + c)

/-- A cell write of four bytes at `a` is admitted: below 2^32, accepted by the platform, and clear of the register
window (R83). -/
def admitted (cfg : Config) (a : Nat) : Bool :=
  a + 3 < 2 ^ addrW && tableMemAdmits cfg a
    && (a + 3 < windowBase cfg || windowBase cfg + 0x3F < a)

/-- The value of cell (r, c): multiply of r and c at grade n modulo ip (R210, R213). -/
def cellValue (ip : Word) (n r c : Nat) : Word := multiply (BitVec.ofNat 32 r) (BitVec.ofNat 32 c) ip n

/-- `table_cell(n, r, c)`: the cell's value with the ROM's modulus (R210). -/
def tableCell (n r c : Nat) : Word := cellValue (ipRom n) n r c

/-- The cells of the grid of grade n, as a set of cells still to be written (R52, R212). -/
def fullGrid (n : Nat) : CellSet := .grid n []

/-- (r, c) is still to be written (R52). -/
def CellSet.mem (p : CellSet) (r c : Nat) : Bool :=
  match p with
  | .empty => false
  | .grid n written => r < 2 ^ n && c < 2 ^ n && !written.contains (r * 2 ^ n + c)

/-- Insert a number into a rising list. -/
def insertSorted (i : Nat) (l : List Nat) : List Nat :=
  match l with
  | [] => [i]
  | j :: rest => if i < j then i :: j :: rest else if i = j then j :: rest else j :: insertSorted i rest

/-- P without the cell (r, c); the empty set once the last cell is gone (R214). -/
def CellSet.remove (p : CellSet) (r c : Nat) : CellSet :=
  match p with
  | .empty => .empty
  | .grid n written =>
    let now := insertSorted (r * 2 ^ n + c) written
    if now.length < 4 ^ n then .grid n now else .empty

/-- The least number from `i` on that a rising list, all of whose members are at least `i`, does not hold. -/
def firstGap (i : Nat) (l : List Nat) : Nat :=
  match l with
  | [] => i
  | j :: rest => if i = j then firstGap (i + 1) rest else i

/-- The cell a cell step takes (R214): `pick` where it is pending, else the first pending cell in row-major order. Every
pending cell is the choice of some `pick`, so every order of R217 is admitted. -/
def chooseCell (n : Nat) (written : List Nat) (pick : Nat × Nat) : Nat × Nat :=
  if (CellSet.grid n written).mem pick.1 pick.2 then pick
  else (firstGap 0 written / 2 ^ n, firstGap 0 written % 2 ^ n)

/-- One cell step on the cell (r, c) (R214): the write, or BERR where the address is refused (R216). -/
def cellStep (r c : Nat) (s : State) : State :=
  let a := cellAddr s.tableBase s.grade r c
  if admitted s.cfg a then
    { s with
      mem := s.mem.writeLE a 4 (cellValue s.tip s.grade r c)
      pending := s.pending.remove r c }
  else raise .berr s

/-- The first pending cell, in row-major order, whose new word a racing read has shown (R88). -/
def shownPending (s : State) : Option (Nat × Nat) :=
  (s.shown.map fun i => (i / 2 ^ s.grade, i % 2 ^ s.grade)).find? fun cell => s.pending.mem cell.1 cell.2

/-- The cell the next cell step takes, while P is not empty (R214): the chosen one, but a refused cell, which would end the command,
waits while a cell that a racing read has shown as new is still to be written. So a word that gets no write because of BERR has
only been read as the old word (R88). The order is the block's to choose (R217). -/
def nextCell (s : State) : Option (Nat × Nat) :=
  match s.pending with
  | .empty => none
  | .grid n written =>
    let cell := chooseCell n written s.pick
    if admitted s.cfg (cellAddr s.tableBase s.grade cell.1 cell.2) then some cell
    else some ((shownPending s).getD cell)

/-- TABLE's work step, while P is not empty (R243). -/
def tableWork (s : State) : Option State :=
  match nextCell s with
  | none => none
  | some cell => some (cellStep cell.1 cell.2 s)

/-- TABLE's working state at acceptance (R212). -/
def tableInit (s : State) : State := { s with tip := ipRom s.grade, pending := fullGrid s.grade }

/-- TABLE: RESULT is left unchanged (R211, R212). -/
def execTable (s : State) : Host.Outcome State Fault Refusal :=
  lifecycle .table tableInit tableWork id s

end Sys2Proof.Machine
end

