-- ==== Sys2Proof/Machine/Dispatch.lean ====
section
/-! DEFINITION. One arm for each command: its meaning in the phase the state is in. -/

namespace Sys2Proof.Machine

/-- A command's meaning: accepted while the block is idle, one block step while it runs (R241 to R245). -/
def exec (i : Instr) (s : State) : Host.Outcome State Fault Refusal :=
  match i with
  | .nop => Sys2Proof.Machine.execNop s
  | .add => Sys2Proof.Machine.execAdd s
  | .sub => Sys2Proof.Machine.execSub s
  | .mul => Sys2Proof.Machine.execMul s
  | .irred => Sys2Proof.Machine.execIrred s
  | .table => Sys2Proof.Machine.execTable s

end Sys2Proof.Machine
end

