-- ==== Sys2Proof/WellFormed.lean ====
section
/-! DEFINITION. Which terms are well formed. A command has no field that could be wrong (R113), so every command is
well formed; a host access is well formed when it is one of the accesses the spec gives a meaning (R72, R73, R81). -/

namespace Sys2Proof

/-- Every command is well formed: it has no operand, immediate or mode field (R113). -/
def Instr.wf (i : Instr) : Bool :=
  match i with
  | .nop => true
  | .add => true
  | .sub => true
  | .mul => true
  | .irred => true
  | .table => true

namespace Machine

/-- A window access is a whole aligned 32-bit word (R72, R73). -/
def wholeAlignedWord (off width : Nat) : Bool := width == 4 && off % 4 == 0

/-- The offset lies in the window, 0x00 to 0x3C (R72). -/
def inWindow (off : Nat) : Bool := off ≤ 0x3C

/-- A memory access is one byte, an aligned 16-bit half or an aligned 32-bit word (R81). -/
def alignedMemAccess (a width : Nat) : Bool :=
  (width == 1 || width == 2 || width == 4) && a % width == 0

/-- The host accesses that have a meaning (R72, R73, R81). -/
def HostOp.wf (op : HostOp) : Bool :=
  match op with
  | .write off width _ => wholeAlignedWord off width && inWindow off
  | .read off width => wholeAlignedWord off width && inWindow off
  | .poll => true
  | .readMem a width => alignedMemAccess a.toNat width
  | .writeMem a width _ => alignedMemAccess a.toNat width

end Machine

end Sys2Proof
end

