-- ==== Sys2Proof/Machine/HostPort.lean ====
section
/-! DEFINITION. What each agent's step does: the host's accesses to the register window and to memory (R70 to R89), and the
block's steps (R243, R244). -/

namespace Sys2Proof.Machine

/-- `Accept(w)` in the host's CMD write, while idle (R241): an illegal word raises ILL and starts nothing (R248). -/
def acceptWord (w : Word) (s : State) : Host.Outcome State Fault Refusal :=
  match decode w with
  | .illegal _ => .next (raise .ill s)
  | .command i => exec i s

/-- A write to CMD, F, G, IP, N or TBASE: dropped with BSYERR while busy, else `act` (R76). -/
def unlessBusy (act : State → Host.Outcome State Fault Refusal) (s : State) : Host.Outcome State Fault Refusal :=
  if s.busy then .next (raise .bsyerr s) else act s

/-- `HostWrite(off, v)` to the register at the offset, or to a reserved offset (R75, R74). -/
def hostWrite (r : Option Reg) (v : Word) (s : State) : Host.Outcome State Fault Refusal :=
  match r with
  | some .cmd => unlessBusy (acceptWord v) s
  | some .status => .next { s with status := s.status.clearBits v }
  | some .f => unlessBusy (fun s => .next { s with f := v }) s
  | some .g => unlessBusy (fun s => .next { s with g := v }) s
  | some .ip => unlessBusy (fun s => .next { s with ip := v }) s
  | some .n => unlessBusy (fun s => .next { s with n := v }) s
  | some .result => .next s
  | some .tbase => unlessBusy (fun s => .next { s with tbase := tbaseStored v }) s
  | some .caps => .next s
  | none => .next s

/-- The value `HostRead(off)` returns, for the register at the offset or for a reserved offset (R77). -/
def hostRead (r : Option Reg) (s : State) : Word :=
  match r with
  | some .cmd => 0
  | some .status => statusWord s.busy s.status
  | some .f => s.f
  | some .g => s.g
  | some .ip => s.ip
  | some .n => s.n
  | some .result => s.result
  | some .tbase => s.tbase
  | some .caps => capsWord s.cfg
  | none => 0

/-- A window access with its checks: a whole aligned word (R73) at an offset of the window (R72). -/
def windowAccess (off width : Nat) (act : Option Reg → Host.Outcome State Fault Refusal) :
    Host.Outcome State Fault Refusal :=
  if !wholeAlignedWord off width then .refused .partialAccess
  else if !inWindow off then .refused .outsideWindow
  else act (regAt off)

/-- The address is a byte of the latched table, [ltb, ltb + 4 * 4^ln - 1] (R89). -/
def inTable (s : State) (a : Nat) : Bool :=
  s.tableBase ≤ a && a < s.tableBase + 4 * 4 ^ s.grade

/-- A host read at the address is a race: the address belongs to the table of a running TABLE (R88). -/
def races (s : State) (a : Nat) : Bool := s.phase == .run .table && inTable s a

/-- The number r * 2^n + c of the cell of the latched table that the address belongs to (R80). -/
def cellNumberAt (s : State) (a : Nat) : Nat := (a - s.tableBase) / 4

/-- The word the running TABLE writes over the aligned word at `a`, where it writes one at all: the value of the cell there,
if the command has passed its precondition and the platform admits the write (R83, R88). -/
def newWordAt (s : State) (a : Nat) : Option Word :=
  let i := cellNumberAt s a
  if !s.pf && admitted s.cfg (s.tableBase + 4 * i) then
    some (cellValue s.tip s.grade (i / 2 ^ s.grade) (i % 2 ^ s.grade))
  else none

/-- The new word that a host read at the address shows: the read is a race, its draw is new, and the TABLE writes the cell (R88). -/
def shownWord (s : State) (a : Nat) : Option Word :=
  match s.draw with
  | .old => none
  | .new => if races s a then newWordAt s a else none

/-- The bytes a host read of memory sees. A read that is a race sees the new word where its draw shows it, and else the bytes held at
acceptance (R88). Any other read sees memory (R86). -/
def bufferRead (a width : Nat) (s : State) : Option Word :=
  match shownWord s a with
  | some v => some (extractBytes v ((a - s.tableBase) % 4) width)
  | none => if races s a then s.memAtAccept.readLE a width else s.mem.readLE a width

/-- A cell whose new word a read shows is one the TABLE still writes, or has written (R88). -/
def markShown (a : Nat) (s : State) : State :=
  match shownWord s a with
  | some _ => { s with shown := insertSorted (cellNumberAt s a) s.shown }
  | none => s

/-- A host read of memory at a bus address; an address in the register window is a window access (R70). -/
def hostReadMem (a width : Nat) (s : State) : Host.Outcome State Fault Refusal :=
  match windowOffset s.cfg a with
  | some off => windowAccess off width fun r => .next (logRead (hostRead r s) s)
  | none =>
    if !alignedMemAccess a width then .refused .unalignedMemory
    else
      match bufferRead a width s with
      | some v => .next (logRead v (markShown a s))
      | none => .fault (.unwrittenMemory a)

/-- A host write of memory at a bus address; an address in the register window is a window access (R70), and a byte of the
table of a running TABLE is refused (R89). -/
def hostWriteMem (a width : Nat) (v : Word) (s : State) : Host.Outcome State Fault Refusal :=
  match windowOffset s.cfg a with
  | some off => windowAccess off width fun r => hostWrite r v s
  | none =>
    if !alignedMemAccess a width then .refused .unalignedMemory
    else if s.phase = .run .table ∧ (List.range width).any (fun i => inTable s (a + i)) = true then
      .refused .runningTableWrite
    else .next { s with mem := s.mem.writeLE a width v }

/-- One access of POLL (R127): read STATUS, and poll again while DONE is 0. -/
def hostPoll (s : State) : Host.Outcome State Fault Refusal :=
  let t := logRead (hostRead (some .status) s) s
  .next (if s.status.done then t else { t with host := .poll :: t.host })

/-- One host access, already taken from the host's program (R72). -/
def hostAccess (op : HostOp) (s : State) : Host.Outcome State Fault Refusal :=
  match op with
  | .write off width v => windowAccess off width fun r => hostWrite r v s
  | .read off width => windowAccess off width fun r => .next (logRead (hostRead r s) s)
  | .poll => hostPoll s
  | .readMem a width => hostReadMem a.toNat width s
  | .writeMem a width v => hostWriteMem a.toNat width v s

/-- The host's turn: its next access, or nothing when its program is over. -/
def hostTurn (s : State) : Host.Outcome State Fault Refusal :=
  match s.host with
  | [] => .next s
  | op :: rest => hostAccess op { s with host := rest }

/-- The block's turn: one step of the running command; none while idle (R240, R276). -/
def blockTurn (s : State) : Host.Outcome State Fault Refusal :=
  match s.phase with
  | .idle => .next s
  | .run i => exec i s

/-- One turn, already taken from the schedule (R79, R290, R300). -/
def takeTurn (t : Turn) (s : State) : Host.Outcome State Fault Refusal :=
  match t with
  | .host d => hostTurn { s with draw := d }
  | .block p => blockTurn { s with pick := p }
  | .reset => .next (platformReset s)

/-- The turn taken when the schedule names no more: the block's while a command runs, so that its steps are weakly fair
(R251), else the host's. -/
def defaultTurn (s : State) : Turn := if s.busy then .block s.pick else .host s.draw

/-- One step of the whole machine: the next turn of the schedule. -/
def nextTurn (s : State) : Host.Outcome State Fault Refusal :=
  match s.sched with
  | [] => takeTurn (defaultTurn s) s
  | t :: rest => takeTurn t { s with sched := rest }

/-- The state in which the very next step is the host's write of the command word to CMD, with the block idle. -/
def State.issueWord (s : State) (w : Word) : State :=
  { s with phase := .idle, host := .write Reg.cmd.offset 4 w :: s.host, sched := .host .old :: s.sched }

end Sys2Proof.Machine
end

