-- ==== Sys2Proof/Machine/Step.lean ====
section
/-! DEFINITION. The step of the machine, and how an instruction's word is placed for the next step. -/

namespace Sys2Proof.Machine

/-- One step: the host or the block moves, or the platform resets the block (R79, R240, R290, R300). -/
def step (s : State) : Host.Outcome State Fault Refusal := nextTurn s

/-- The block fetches nothing (R93): the host writes each command word to CMD (R30). The next step is that write. -/
def State.withFetchWord (s : State) (nbits w : Nat) : State :=
  s.issueWord (BitVec.ofNat 32 (w % 2 ^ nbits))

end Sys2Proof.Machine
end

