-- ==== Sys2Proof/Safety.lean ====
section
/-! DEFINITION. What counts as a coherent state of the machine: the relations between its registers that every step keeps,
and how far a running MUL or TABLE has come. -/

namespace Sys2Proof.Machine

/-- P's canonical form: the written cells' numbers rise, lie in the grid, and are fewer than its 4^n cells. -/
def CellSet.wf (p : CellSet) : Prop :=
  match p with
  | .empty => True
  | .grid n written => written.Pairwise (· < ·) ∧ (∀ i ∈ written, i < 4 ^ n) ∧ written.length < 4 ^ n

/-- The relations between the registers that hold in every state a run reaches: memory in canonical form, TBASE aligned (R37),
pf only while a command runs and only with CHECK_PRECOND = 1 (R58), PERR only then too (R44), DONE = 0 while busy (R75),
latches and registers in agreement while busy (R50), k at most W (R51), P empty unless a TABLE that passed its check runs
(R52), and every cell of a running TABLE shown as new to a racing read one whose write is admitted (R88). -/
structure State.Coherent (s : State) : Prop where
  mem_wf : s.mem.wf
  tbase_aligned : s.tbase.toNat % 4 = 0
  pf_idle : s.phase = .idle → s.pf = false
  unchecked : s.cfg.checkPrecond = false → s.pf = false ∧ s.status.perr = false
  done_busy : s.busy = true → s.status.done = false
  latches_busy : ∀ op, s.phase = .run op →
    s.lop = opcode op ∧ s.lf = s.f ∧ s.lg = s.g ∧ s.lip = s.ip ∧ s.ln = s.n ∧ s.ltb = s.tbase
  k_le : s.k ≤ dataW
  pending_wf : s.pending.wf
  pending_grade : ∀ n written, s.pending = .grid n written → s.phase = .run .table ∧ s.pf = false ∧ n = s.grade
  shown_rises : s.shown.Pairwise (· < ·)
  shown_admitted : s.phase = .run .table → s.pf = false →
    ∀ i ∈ s.shown, i < 4 ^ s.grade ∧ admitted s.cfg (s.tableBase + 4 * i) = true

/-- How far a running MUL has come: the iterations still to run, from the working registers, give the whole product
(R151, R154). -/
def State.MulProgress (s : State) : Prop :=
  s.phase = .run .mul → s.pf = false →
    s.k ≤ iterations s.grade ∧
      mulLoop s.lip s.grade (iterations s.grade - s.k) s.acc s.fw s.gw = multiply s.lf s.lg s.lip s.grade

/-- How far a running TABLE has come: the modulus is the ROM's (R52); a cell still to be written holds the bytes it held at
acceptance, and every other cell of the table has an admitted address and holds its value, little-endian (R81, R83,
R214, R216). -/
def State.TableProgress (s : State) : Prop :=
  s.phase = .run .table → s.pf = false →
    s.tip = ipRom s.grade ∧
      ∀ r c, r < 2 ^ s.grade → c < 2 ^ s.grade →
        if s.pending.mem r c then
          ∀ j, j < 4 → s.mem.read (cellAddr s.tableBase s.grade r c + j)
            = s.memAtAccept.read (cellAddr s.tableBase s.grade r c + j)
        else admitted s.cfg (cellAddr s.tableBase s.grade r c) = true ∧
          s.mem.readLE (cellAddr s.tableBase s.grade r c) 4 = some (tableCell s.grade r c)

/-- How many cells P still has. -/
def CellSet.size (p : CellSet) : Nat :=
  match p with
  | .empty => 0
  | .grid n written => 4 ^ n - written.length

/-- The next step is a turn of the host: the schedule names it, or names nothing while the block is idle (R240; Log 2). -/
def State.HostMoves (s : State) : Prop := (∃ d rest, s.sched = .host d :: rest) ∨ (s.sched = [] ∧ s.phase = .idle)

/-- The host's next access writes `v` to the register: `HostWrite` at its offset, or a word written to its bus address (R70, R75;
Log 8). -/
def State.HostWrites (s : State) (r : Reg) (v : Word) : Prop :=
  s.HostMoves ∧ ∃ ops, s.host = .write r.offset 4 v :: ops ∨
    ∃ a : Word, s.host = .writeMem a 4 v :: ops ∧ a.toNat = windowBase s.cfg + r.offset

/-- A final state of a run: the host has taken its last access and the block is idle (R311). A claim about a run reads its
registers, STATUS and table buffer. -/
def State.Final (s : State) : Prop := s.host = [] ∧ s.phase = .idle

end Sys2Proof.Machine
end

