-- ==== Sys2Proof/Certificates/Slice0/Obligations.lean ====
section
/-! DEFINITION. The statements for the provers, and the few terms they are written in. -/

namespace Sys2Proof.Claims

open Sys2Proof Sys2Proof.Machine

/-- The state after acceptance of a command whose precondition is not found to fail, before the command's own working
registers are set: the latches, DONE cleared, BUSY set with the phase, pf = 0 (R241). -/
def accepted (i : Instr) (s : State) : State :=
  { s with
    lop := opcode i, lf := s.f, lg := s.g, lip := s.ip, ln := s.n, ltb := s.tbase, memAtAccept := s.mem, shown := []
    status := { s.status with done := false }, phase := .run i, pf := false }

/-- The state after a completion with pf = 0, RESULT aside: BUSY cleared with the phase, DONE set (R245). -/
def completed (s : State) : State :=
  { s with status := { s.status with done := true }, phase := .idle }

/-- `exec i` taken `m` times: acceptance first when the block is idle, then block steps. -/
def execTimes (i : Instr) (m : Nat) (s : State) : Host.Outcome State Fault Refusal :=
  match m with
  | 0 => .next s
  | m + 1 =>
    match exec i s with
    | .next t => execTimes i m t
    | .fault r => .fault r
    | .refused r => .refused r

/-- The most block steps a running command still takes (R251). -/
def stepsLeft (i : Instr) (s : State) : Nat :=
  if s.pf then 1
  else
    match i with
    | .nop => 1
    | .add => 1
    | .sub => 1
    | .irred => 1
    | .mul => iterations s.grade - s.k + 1
    | .table => s.pending.size + 1

/-- The next step is a reset event (R290). -/
def resetTurn (s : State) : Prop := ∃ rest, s.sched = .reset :: rest

/-- Every invariant of the machine together. -/
def inv (s : State) : Prop := s.Coherent ∧ s.MulProgress ∧ s.TableProgress

open Polynomial in
/-- The polynomial over GF(2) that a word represents: the coefficient of x^i is bit i (R20). -/
noncomputable def poly (v : Word) : (ZMod 2)[X] :=
  ∑ i ∈ Finset.range 32, if v.getLsbD i then X ^ i else 0

end Sys2Proof.Claims

open Sys2Proof Sys2Proof.Machine Sys2Proof.Claims

/-! Encoding -/

/-- R115, R116: words written out from the opcode map and from the illegal words' rule decode as they say. -/
def Obligations.OpcodeMapWordsDecode : Prop :=
  decode 0x00000000#32 = .command .nop ∧ decode 0x00000001#32 = .command .add ∧
    decode 0x00000002#32 = .command .sub ∧ decode 0x00000003#32 = .command .mul ∧
    decode 0x00000004#32 = .command .irred ∧ decode 0x00000005#32 = .command .table ∧
    decode 0x00000006#32 = .illegal .reservedOpcode ∧ decode 0x0000000F#32 = .illegal .reservedOpcode ∧
    decode 0x00000010#32 = .illegal .reservedBits ∧ decode 0xFFFFFFFF#32 = .illegal .reservedBits

/-- R112: a word is legal exactly when RSVD = 0 and OP is 0x0 to 0x5, that is, exactly when it is 0x00000000 to
0x00000005. -/
def Obligations.LegalWordsAreExactlyZeroToFive : Prop :=
  ∀ w : Word,
    ((∃ i, decode w = .command i) ↔ rsvdField w = 0 ∧ (opField w).toNat ≤ 5) ∧
    ((∃ i, decode w = .command i) ↔ w.toNat ≤ 5)

/-- R112, R115: each command has exactly one word, the one the encoder gives; no bit of a word is dropped. -/
def Obligations.DecodeInvertsEncode : Prop :=
  ∀ (w : Word) (i : Instr), decode w = .command i ↔ w = encode i

/-! The step -/

/-- R241, R30: while the block is idle, a host write of a legal command word to CMD is one step, and that step is `exec` of
the decoded command, on the state with the access taken from the host's program and the turn from the schedule, which are the model's own data (Log 1, Log 2). -/
def Obligations.StepRunsTheWrittenCommand : Prop :=
  ∀ (s : State) (i : Instr) (w : Word) (ops : List HostOp), s.phase = .idle → s.host = .write 0x00 4 w :: ops →
    decode w = .command i →
    (∀ d rest, s.sched = .host d :: rest → step s = exec i { s with host := ops, sched := rest, draw := d }) ∧
      (s.sched = [] → step s = exec i { s with host := ops })

/-- R240, R243: a block turn while a command runs is `exec` of that command, on the state with the turn taken from the
schedule; with no turn scheduled the running command's block step is taken. The schedule is the model's own data (Log 2). -/
def Obligations.StepRunsTheRunningCommand : Prop :=
  ∀ (s : State) (i : Instr), s.phase = .run i →
    (∀ p rest, s.sched = .block p :: rest → step s = exec i { s with sched := rest, pick := p }) ∧
      (s.sched = [] → step s = exec i s)

/-- R276, R311: when phase = IDLE the block takes no steps and its state survives unchanged; a final state, with no turn
scheduled, stays as it is. That a turn with nothing to do is a step, which changes only the schedule and the pick, and what is done
with no turn scheduled, are the model's choice (Log 2). -/
def Obligations.IdleBlockTakesNoStep : Prop :=
  ∀ s : State, s.phase = .idle →
    (∀ p rest, s.sched = .block p :: rest → step s = .next { s with sched := rest, pick := p }) ∧
      (s.sched = [] → s.Final → step s = .next s)

/-! Reset -/

/-- R57: the value of every piece of state after reset, as the rule's table lists them. -/
def Obligations.ResetStateIsAsListed : Prop :=
  let s := State.reset
  hostRead (some .cmd) s = 0x00000000#32 ∧ hostRead (some .status) s = 0x00000000#32 ∧
    (s.busy = false ∧ s.status.done = false ∧ s.status.ill = false ∧ s.status.bsyerr = false ∧
      s.status.perr = false ∧ s.status.berr = false) ∧
    (s.f = 0 ∧ s.g = 0 ∧ s.ip = 0 ∧ s.n = 0 ∧ s.result = 0 ∧ s.tbase = 0) ∧
    hostRead (some .caps) s = 0x00001E20#32 ∧ s.phase = .idle ∧
    (s.lop = 0 ∧ s.lf = 0 ∧ s.lg = 0 ∧ s.lip = 0 ∧ s.ln = 0 ∧ s.ltb = 0) ∧
    (s.acc = 0 ∧ s.fw = 0 ∧ s.gw = 0 ∧ s.k = 0) ∧ s.tip = 0 ∧ s.pending = .empty ∧ s.pf = false ∧
    ∀ u : State, (platformReset u).mem = u.mem ∧ hostRead (some .caps) (platformReset u) = hostRead (some .caps) u

/-- R291: a reset abandons a running command: it does not complete, DONE and RESULT are 0 after it, every piece of block state
has its reset value, and the table buffer keeps every byte. -/
def Obligations.ResetAbandonsTheCommand : Prop :=
  ∀ (s : State) (rest : List Turn), s.sched = .reset :: rest →
    ∃ t, step s = .next t ∧ t.phase = .idle ∧ t.status = ⟨false, false, false, false, false⟩ ∧ t.result = 0 ∧
      (t.f = 0 ∧ t.g = 0 ∧ t.ip = 0 ∧ t.n = 0 ∧ t.tbase = 0) ∧
      (t.lop = 0 ∧ t.lf = 0 ∧ t.lg = 0 ∧ t.lip = 0 ∧ t.ln = 0 ∧ t.ltb = 0) ∧
      (t.acc = 0 ∧ t.fw = 0 ∧ t.gw = 0 ∧ t.k = 0 ∧ t.tip = 0 ∧ t.pending = .empty ∧ t.pf = false) ∧
      t.cfg = s.cfg ∧ t.mem = s.mem ∧ ∀ a, t.mem.read a = s.mem.read a

/-! The commands -/

/-- R247: NOP is accepted from every idle state, and its one block step completes it with no other effect. -/
def Obligations.NopRunsTheLifecycle : Prop :=
  ∀ s : State,
    (s.phase = .idle → exec .nop s = .next (accepted .nop s)) ∧
      (s.phase = .run .nop → s.pf = false → exec .nop s = .next (completed s))

/-- R141: ADD is accepted from every idle state, whatever CHECK_PRECOND; its completion writes lf XOR lg to RESULT, and nothing
else but BUSY and DONE changes. -/
def Obligations.AddWritesXor : Prop :=
  ∀ s : State,
    (s.phase = .idle → exec .add s = .next (accepted .add s)) ∧
      (s.phase = .run .add → s.pf = false →
        exec .add s = .next { completed s with result := s.lf ^^^ s.lg })

/-- R142: SUB does what ADD does, for every input. -/
def Obligations.SubWritesXor : Prop :=
  ∀ s : State,
    (s.phase = .idle → exec .sub s = .next (accepted .sub s)) ∧
      (s.phase = .run .sub → s.pf = false →
        exec .sub s = .next { completed s with result := s.lf ^^^ s.lg })

/-- R192: IRRED is accepted when CHECK_PRECOND = 0 or the grade is 1 to N_MAX; its completion writes the ROM's modulus for ln to
RESULT: x + 1, with bit ln set too where 1 < ln < 32. -/
def Obligations.IrredWritesTheRomModulus : Prop :=
  ∀ s : State,
    (s.phase = .idle → (s.cfg.checkPrecond = false ∨ (1 ≤ s.n.toNat ∧ s.n.toNat ≤ 30)) →
        exec .irred s = .next (accepted .irred s)) ∧
      (s.phase = .run .irred → s.pf = false →
        exec .irred s = .next { completed s with
          result := if 1 < s.ln.toNat ∧ s.ln.toNat < 32 then 3#32 ||| (1#32 <<< s.ln.toNat) else 3#32 })

/-- R150, R151, R155: MUL's acceptance sets up acc, fw, gw and k; each work step is one iteration, steps 2a to 2e in the rule's
order; completion writes acc to RESULT. Nothing else changes. -/
def Obligations.MulAcceptsIteratesAndCompletes : Prop :=
  ∀ s : State,
    (s.phase = .idle →
        (s.cfg.checkPrecond = false ∨ (1 ≤ s.n.toNat ∧ s.n.toNat ≤ 30 ∧ s.ip.getLsbD s.n.toNat = true)) →
        exec .mul s = .next { accepted .mul s with acc := 0, fw := s.f, gw := s.g, k := 0 }) ∧
      (s.phase = .run .mul → s.pf = false → s.k < min s.ln.toNat 32 →
        exec .mul s = .next { s with
          acc := if s.gw.getLsbD 0 then s.acc ^^^ s.fw else s.acc
          fw := ((s.fw <<< 1) &&& mask s.ln.toNat) ^^^
            (if s.fw.getLsbD (s.ln.toNat - 1) then s.lip &&& mask s.ln.toNat else 0)
          gw := s.gw >>> 1
          k := s.k + 1 }) ∧
      (s.phase = .run .mul → s.pf = false → ¬ s.k < min s.ln.toNat 32 →
        exec .mul s = .next { completed s with result := s.acc })

/-- R154, R155: from every idle state in which MUL passes its check, MUL taken to its end is acceptance, min(n, W) iterations and
completion, after which RESULT is multiply(f, g, ip, n); only the latches, the multiplier's working registers, BUSY and DONE
change besides. -/
def Obligations.MulTakenToItsEndGivesTheProduct : Prop :=
  ∀ s : State, s.phase = .idle →
    (s.cfg.checkPrecond = false ∨ (1 ≤ s.n.toNat ∧ s.n.toNat ≤ 30 ∧ s.ip.getLsbD s.n.toNat = true)) →
    ∃ fw gw, execTimes .mul (min s.n.toNat 32 + 2) s = .next
      { completed (accepted .mul s) with
        acc := multiply s.f s.g s.ip s.n.toNat, fw := fw, gw := gw, k := min s.n.toNat 32
        result := multiply s.f s.g s.ip s.n.toNat }

/-- R212, R211: TABLE's acceptance takes the modulus from the ROM, not from IP, and makes every cell of the grid pending; with no
cell pending, completion changes BUSY and DONE only, and leaves RESULT. -/
def Obligations.TableAcceptsAndCompletes : Prop :=
  ∀ s : State,
    (s.phase = .idle → (s.cfg.checkPrecond = false ∨ (1 ≤ s.n.toNat ∧ s.n.toNat ≤ 30)) →
        ∃ p, exec .table s = .next { accepted .table s with tip := ipRom s.n.toNat, pending := p } ∧
          ∀ r c, p.mem r c = true ↔ r < 2 ^ s.n.toNat ∧ c < 2 ^ s.n.toNat) ∧
      (s.phase = .run .table → s.pf = false → s.pending = .empty → exec .table s = .next (completed s))

/-- R214, R82, R81: a cell step writes exactly one pending cell, the one the turn picks where that one is pending and either its write is
admitted or no pending cell has been shown as new to a racing read (Log 6): its four bytes, little-endian, at b + 4 * (r * 2^n + c), where the write is admitted. That cell leaves P; every other cell, every other
byte of memory and every register stay as they were. Where the write of the cell taken is refused, the TABLE ends with BERR instead (R216).
Which cell a turn that picks no pending cell takes is the model's choice (Log 3). -/
def Obligations.CellStepWritesOnePendingCell : Prop :=
  ∀ s : State, s.phase = .run .table → s.pf = false → s.pending.wf → s.pending ≠ .empty →
    ∃ r c, nextCell s = some (r, c) ∧ s.pending.mem r c = true ∧
      (s.pending.mem s.pick.1 s.pick.2 = true →
        (admitted s.cfg (cellAddr s.ltb.toNat s.ln.toNat s.pick.1 s.pick.2) = true ∨
          ∀ i ∈ s.shown, s.pending.mem (i / 2 ^ s.ln.toNat) (i % 2 ^ s.ln.toNat) = false) →
        (r, c) = s.pick) ∧
      (admitted s.cfg (cellAddr s.ltb.toNat s.ln.toNat r c) = true →
        ∃ m p, exec .table s = .next { s with mem := m, pending := p } ∧
          (∀ r' c', p.mem r' c' = true ↔ s.pending.mem r' c' = true ∧ (r', c') ≠ (r, c)) ∧
          (∀ j, j < 4 → m.read (s.ltb.toNat + 4 * (r * 2 ^ s.ln.toNat + c) + j) =
            some ((multiply (BitVec.ofNat 32 r) (BitVec.ofNat 32 c) s.tip s.ln.toNat).extractLsb' (8 * j) 8)) ∧
          ∀ x, (x < cellAddr s.ltb.toNat s.ln.toNat r c ∨ cellAddr s.ltb.toNat s.ln.toNat r c + 4 ≤ x) →
            m.read x = s.mem.read x) ∧
      (admitted s.cfg (cellAddr s.ltb.toNat s.ln.toNat r c) = false →
        exec .table s = .next { s with
          status := { s.status with berr := true, done := true }, phase := .idle, pending := .empty })

/-- R216: a cell step whose address is refused sets BERR, writes nothing, empties P and completes the TABLE at once. -/
def Obligations.RefusedCellEndsTheTable : Prop :=
  ∀ (s : State) (r c : Nat), s.phase = .run .table → s.pf = false → nextCell s = some (r, c) →
    admitted s.cfg (cellAddr s.ltb.toNat s.ln.toNat r c) = false →
    exec .table s = .next { s with
      status := { s.status with berr := true, done := true }, phase := .idle, pending := .empty }

/-- R83: a cell write is admitted exactly when it lies below 2^32, the platform accepts it, and none of its four bytes is in the
register window. -/
def Obligations.AdmissionIsTheThreeChecks : Prop :=
  ∀ (cfg : Config) (a : Nat), admitted cfg a = true ↔
    a + 3 < 2 ^ 32 ∧ tableMemAdmits cfg a = true ∧
      ∀ j, j < 4 → ¬ (windowBase cfg ≤ a + j ∧ a + j ≤ windowBase cfg + 0x3F)

/-- R264, R262: with CHECK_PRECOND = 1, MUL with a grade outside 1 to 30 or bit n of ip 0, and IRRED and TABLE with a grade outside
1 to 30, only set pf at acceptance; their one block step sets PERR and DONE and changes nothing else. NOP, ADD and SUB are accepted as
always. -/
def Obligations.FailedPreconditionEndsWithPerr : Prop :=
  ∀ (s : State) (i : Instr), s.phase = .idle → s.cfg.checkPrecond = true →
    let fails := match i with
      | .nop => False
      | .add => False
      | .sub => False
      | .mul => ¬ (1 ≤ s.n.toNat ∧ s.n.toNat ≤ 30 ∧ s.ip.getLsbD s.n.toNat = true)
      | .irred => ¬ (1 ≤ s.n.toNat ∧ s.n.toNat ≤ 30)
      | .table => ¬ (1 ≤ s.n.toNat ∧ s.n.toNat ≤ 30)
    (fails → exec i s = .next { accepted i s with pf := true } ∧
      exec i { accepted i s with pf := true } = .next { accepted i s with
        status := { s.status with done := true, perr := true }, phase := .idle }) ∧
    (¬ fails → ∃ t, exec i s = .next t ∧ t.pf = false)

/-- R50: a running command reads only its latches, never the live registers: other values in F, G, IP, N and TBASE change nothing
in its block step but those values themselves. -/
def Obligations.RunningCommandReadsOnlyLatches : Prop :=
  ∀ (s : State) (i : Instr) (f g ip n tbase : Word), s.phase = .run i →
    ∃ t, exec i s = .next t ∧
      exec i { s with f := f, g := g, ip := ip, n := n, tbase := tbase }
        = .next { t with f := f, g := g, ip := ip, n := n, tbase := tbase }

/-- R242: a command that is issued while another one runs does not start: it sets BSYERR and nothing else changes. That `exec` is
this step then is the model's choice (Log 12). -/
def Obligations.CommandIsLostWhileAnotherRuns : Prop :=
  ∀ (s : State) (i j : Instr), s.phase = .run j → i ≠ j →
    exec i s = .next { s with status := { s.status with bsyerr := true } }

/-! The host's accesses -/

/-- R248: an illegal command word written while idle sets ILL and DONE and changes nothing else. -/
def Obligations.IllegalWordSetsIllAndDone : Prop :=
  ∀ (s : State) (w : Word) (ops : List HostOp) (d : Draw) (rest : List Turn), s.phase = .idle →
    s.host = .write 0x00 4 w :: ops → s.sched = .host d :: rest → 5 < w.toNat →
    step s = .next { s with
      host := ops, sched := rest, draw := d, status := { s.status with ill := true, done := true } }

/-- R76, R266: while BUSY = 1 a write of any word to CMD, F, G, IP, N or TBASE is dropped and sets BSYERR; nothing else changes, so
the running command is not affected, and an illegal word sets no ILL. -/
def Obligations.WritesWhileBusyAreDropped : Prop :=
  ∀ (s : State) (i : Instr) (off : Nat) (v : Word) (ops : List HostOp) (d : Draw) (rest : List Turn),
    s.phase = .run i → off ∈ [0x00, 0x08, 0x0C, 0x10, 0x14, 0x1C] → s.host = .write off 4 v :: ops →
    s.sched = .host d :: rest →
    step s = .next { s with
      host := ops, sched := rest, draw := d, status := { s.status with bsyerr := true } }

/-- R75, R37, R74: what a host write does at every offset but CMD: the operand registers while idle, with bits 1:0 of TBASE stored as
0; write-1-to-clear of STATUS at any time; and no effect at RESULT, CAPS and the reserved offsets. -/
def Obligations.HostWritesHaveTheListedEffect : Prop :=
  ∀ (s : State) (off : Nat) (v : Word) (ops : List HostOp) (d : Draw) (rest : List Turn),
    s.host = .write off 4 v :: ops → s.sched = .host d :: rest →
    let u := { s with host := ops, sched := rest, draw := d }
    (off = 0x04 → step s = .next { u with status :=
        { done := s.status.done && !v.getLsbD 1
          ill := s.status.ill && !v.getLsbD 2
          bsyerr := s.status.bsyerr && !v.getLsbD 3
          perr := s.status.perr && !v.getLsbD 4
          berr := s.status.berr && !v.getLsbD 5 } }) ∧
      (off = 0x08 → s.phase = .idle → step s = .next { u with f := v }) ∧
      (off = 0x0C → s.phase = .idle → step s = .next { u with g := v }) ∧
      (off = 0x10 → s.phase = .idle → step s = .next { u with ip := v }) ∧
      (off = 0x14 → s.phase = .idle → step s = .next { u with n := v }) ∧
      (off = 0x1C → s.phase = .idle → step s = .next { u with tbase := v &&& 0xFFFFFFFC#32 }) ∧
      (off ∈ [0x18, 0x20, 0x24, 0x28, 0x2C, 0x30, 0x34, 0x38, 0x3C] → step s = .next u)

/-- R77: what a host read returns at every offset. It changes no state of the block, and the value goes to the model's
list of the values the host has read (Log 15). Bits 31:6 of STATUS read 0. -/
def Obligations.HostReadsReturnTheListedValue : Prop :=
  ∀ (s : State) (off : Nat) (ops : List HostOp) (d : Draw) (rest : List Turn),
    s.host = .read off 4 :: ops → s.sched = .host d :: rest → off % 4 = 0 → off ≤ 0x3C →
    ∃ v : Word, step s = .next { s with host := ops, sched := rest, draw := d, reads := v :: s.reads } ∧
      (off = 0x00 → v = 0) ∧
      (off = 0x04 → v.getLsbD 0 = s.busy ∧ v.getLsbD 1 = s.status.done ∧ v.getLsbD 2 = s.status.ill ∧
        v.getLsbD 3 = s.status.bsyerr ∧ v.getLsbD 4 = s.status.perr ∧ v.getLsbD 5 = s.status.berr ∧
        ∀ b, 6 ≤ b → v.getLsbD b = false) ∧
      (off = 0x08 → v = s.f) ∧ (off = 0x0C → v = s.g) ∧ (off = 0x10 → v = s.ip) ∧ (off = 0x14 → v = s.n) ∧
      (off = 0x18 → v = s.result) ∧ (off = 0x1C → v = s.tbase) ∧
      (off = 0x20 → v = if s.cfg.checkPrecond then 0x00011E20#32 else 0x00001E20#32) ∧
      (0x24 ≤ off → v = 0)

/-- R127: each access of POLL reads STATUS, and the poll goes on exactly while the value read has DONE = 0. The value
goes to the model's list of the values the host has read (Log 15). -/
def Obligations.PollReadsStatusUntilDone : Prop :=
  ∀ (s : State) (ops : List HostOp) (d : Draw) (rest : List Turn), s.host = .poll :: ops → s.sched = .host d :: rest →
    ∃ v : Word,
      (v.getLsbD 0 = s.busy ∧ v.getLsbD 1 = s.status.done ∧ v.getLsbD 2 = s.status.ill ∧
        v.getLsbD 3 = s.status.bsyerr ∧ v.getLsbD 4 = s.status.perr ∧ v.getLsbD 5 = s.status.berr ∧
        ∀ b, 6 ≤ b → v.getLsbD b = false) ∧
      step s = .next { s with
        host := if v.getLsbD 1 then ops else .poll :: ops, sched := rest, draw := d, reads := v :: s.reads }

/-- R73: a window access that is not a whole aligned 32-bit word is refused, whatever the state. -/
def Obligations.PartialWindowAccessIsRefused : Prop :=
  ∀ (s : State) (off width : Nat) (v : Word) (ops : List HostOp) (d : Draw) (rest : List Turn),
    s.sched = .host d :: rest → (width ≠ 4 ∨ off % 4 ≠ 0) →
    (s.host = .write off width v :: ops ∨ s.host = .read off width :: ops) → step s = .refused .partialAccess

/-- R89: a host write to a byte of the current table while phase = RUN(TABLE) is refused. That the register window is not
part of the buffer is the model's reading (Log 8). -/
def Obligations.WriteToRunningTableIsRefused : Prop :=
  ∀ (s : State) (a : Word) (width : Nat) (v : Word) (j : Nat) (ops : List HostOp) (d : Draw) (rest : List Turn),
    s.sched = .host d :: rest → s.host = .writeMem a width v :: ops → s.phase = .run .table →
    (width = 1 ∨ width = 2 ∨ width = 4) → a.toNat % width = 0 →
    ¬ (windowBase s.cfg ≤ a.toNat ∧ a.toNat ≤ windowBase s.cfg + 0x3F) → j < width →
    s.ltb.toNat ≤ a.toNat + j → a.toNat + j ≤ s.ltb.toNat + 4 * 4 ^ s.ln.toNat - 1 →
    step s = .refused .runningTableWrite

/-- R88: a host read of an aligned cell word while TABLE runs returns the word the buffer held at acceptance or the value the
command writes there, as the draw says; a cell whose write the platform refuses gives the old word. A cell whose
new word is shown is noted as shown, the model's own note that the TABLE writes it before it can end with BERR (Log 6). -/
def Obligations.RacingReadGivesOldOrNewWord : Prop :=
  ∀ (s : State) (a : Word) (r c : Nat) (old : Word) (ops : List HostOp) (d : Draw) (rest : List Turn),
    s.sched = .host d :: rest → s.host = .readMem a 4 :: ops → s.Coherent → s.TableProgress →
    s.phase = .run .table → s.pf = false → r < 2 ^ s.grade → c < 2 ^ s.grade →
    a.toNat = cellAddr s.tableBase s.grade r c →
    ¬ (windowBase s.cfg ≤ a.toNat ∧ a.toNat ≤ windowBase s.cfg + 0x3F) → s.memAtAccept.readLE a.toNat 4 = some old →
    step s = .next { s with
      host := ops, sched := rest, draw := d
      reads := (if d = .new ∧ admitted s.cfg a.toNat = true then tableCell s.grade r c else old) :: s.reads
      shown := if d = .new ∧ admitted s.cfg a.toNat = true then insertSorted (r * 2 ^ s.grade + c) s.shown else s.shown }

/-- R81, R86: outside a running TABLE a host read of a byte, an aligned half or an aligned word of memory returns its bytes, the
lowest address in the lowest bits. The value goes to the model's list of the values the host has read (Log 15). -/
def Obligations.MemoryReadsAreLittleEndian : Prop :=
  ∀ (s : State) (a : Word) (width : Nat) (b : Nat → Byte) (ops : List HostOp) (d : Draw) (rest : List Turn),
    s.sched = .host d :: rest → s.host = .readMem a width :: ops → s.phase ≠ .run .table →
    (width = 1 ∨ width = 2 ∨ width = 4) → a.toNat % width = 0 →
    ¬ (windowBase s.cfg ≤ a.toNat ∧ a.toNat ≤ windowBase s.cfg + 0x3F) →
    (∀ j, j < width → s.mem.read (a.toNat + j) = some (b j)) →
    ∃ v : Word, step s = .next { s with host := ops, sched := rest, draw := d, reads := v :: s.reads } ∧
      ∀ j k, k < 8 → v.getLsbD (8 * j + k) = (decide (j < width) && (b j).getLsbD k)

/-- R81, R89: a host write of a byte, an aligned half or an aligned word of memory that touches no byte of a running table stores its
bytes, the least significant one lowest, and changes no other byte and no register. That host stores are little-endian is the
model's choice (Log 9). -/
def Obligations.HostStoresWriteOnlyTheirBytes : Prop :=
  ∀ (s : State) (a : Word) (width : Nat) (v : Word) (ops : List HostOp) (d : Draw) (rest : List Turn),
    s.sched = .host d :: rest → s.host = .writeMem a width v :: ops → (width = 1 ∨ width = 2 ∨ width = 4) →
    a.toNat % width = 0 → ¬ (windowBase s.cfg ≤ a.toNat ∧ a.toNat ≤ windowBase s.cfg + 0x3F) →
    (s.phase = .run .table → ∀ j, j < width →
      a.toNat + j < s.ltb.toNat ∨ s.ltb.toNat + 4 * 4 ^ s.ln.toNat ≤ a.toNat + j) →
    ∃ m, step s = .next { s with host := ops, sched := rest, draw := d, mem := m } ∧
      (∀ j, j < width → m.read (a.toNat + j) = some (v.extractLsb' (8 * j) 8)) ∧
      ∀ x, (x < a.toNat ∨ a.toNat + width ≤ x) → m.read x = s.mem.read x

/-! Rules about the whole machine -/

/-- R36: RESULT changes only at the completion of ADD, SUB, MUL or IRRED with pf = 0, to the value of that command, or at reset. -/
def Obligations.ResultChangesOnlyAtCompletion : Prop :=
  ∀ s t : State, step s = .next t → t.result ≠ s.result →
    resetTurn s ∨
      (s.pf = false ∧ t.phase = .idle ∧ t.status.done = true ∧
        ((s.phase = .run .add ∧ t.result = s.lf ^^^ s.lg) ∨ (s.phase = .run .sub ∧ t.result = s.lf ^^^ s.lg) ∨
          (s.phase = .run .mul ∧ t.result = s.acc) ∨ (s.phase = .run .irred ∧ t.result = ipRom s.ln.toNat)))

/-- R32 to R35, R37: the block never writes F, G, IP, N or TBASE: one of them changes only by a host write while idle, or at
reset. -/
def Obligations.OperandRegistersChangeOnlyByTheHost : Prop :=
  ∀ s t : State, step s = .next t →
    (t.f ≠ s.f ∨ t.g ≠ s.g ∨ t.ip ≠ s.ip ∨ t.n ≠ s.n ∨ t.tbase ≠ s.tbase) →
    resetTurn s ∨ (s.phase = .idle ∧ t.phase = .idle ∧ s.host ≠ [] ∧ t.result = s.result ∧ t.status = s.status ∧ t.mem = s.mem)

/-- R50: the latches change only at an acceptance, where they take the registers' values, or at reset. -/
def Obligations.LatchesChangeOnlyAtAcceptance : Prop :=
  ∀ s t : State, step s = .next t →
    (t.lop ≠ s.lop ∨ t.lf ≠ s.lf ∨ t.lg ≠ s.lg ∨ t.lip ≠ s.lip ∨ t.ln ≠ s.ln ∨ t.ltb ≠ s.ltb) →
    resetTurn s ∨ (s.phase = .idle ∧ ∃ i, t.phase = .run i ∧ t.lop = opcode i ∧ t.lf = s.f ∧ t.lg = s.g ∧
      t.lip = s.ip ∧ t.ln = s.n ∧ t.ltb = s.tbase)

/-- R49: only acceptance takes the phase from IDLE to RUN(op), only completion takes it back, setting DONE, and reset makes it
IDLE; no other step changes it. -/
def Obligations.PhaseChangesOnlyByTheLifecycle : Prop :=
  ∀ s t : State, step s = .next t → t.phase ≠ s.phase →
    (resetTurn s ∧ t.phase = .idle) ∨ (s.phase = .idle ∧ (∃ i, t.phase = .run i ∧ t.lop = opcode i) ∧ t.status.done = false) ∨
      (s.phase ≠ .idle ∧ t.phase = .idle ∧ t.status.done = true ∧ t.pf = false)

/-- R261, R41 to R45: what sets each STATUS bit. ILL: an illegal word while idle. BSYERR: a write while busy. PERR: completion with
pf = 1, which needs CHECK_PRECOND = 1. BERR: a TABLE with a cell still pending, which it ends. DONE: completion, or an illegal
word. -/
def Obligations.StatusBitsRiseOnlyAsListed : Prop :=
  ∀ s t : State, s.Coherent → step s = .next t →
    (s.status.ill = false → t.status.ill = true → s.phase = .idle ∧ t.phase = .idle ∧ t.status.done = true) ∧
      (s.status.bsyerr = false → t.status.bsyerr = true → s.phase ≠ .idle ∧ t.phase = s.phase) ∧
      (s.status.perr = false → t.status.perr = true →
        s.cfg.checkPrecond = true ∧ s.pf = true ∧ s.phase ≠ .idle ∧ t.phase = .idle ∧ t.status.done = true) ∧
      (s.status.berr = false → t.status.berr = true →
        s.phase = .run .table ∧ s.pf = false ∧ s.pending ≠ .empty ∧ t.phase = .idle ∧ t.status.done = true ∧
          t.pending = .empty ∧ t.mem = s.mem) ∧
      (s.status.done = false → t.status.done = true →
        (s.phase ≠ .idle ∧ t.phase = .idle) ∨ (s.phase = .idle ∧ t.phase = .idle ∧ t.status.ill = true))

/-- R39, R41: the error bits are sticky. ILL, BSYERR, PERR and BERR fall only by a host write of STATUS with their bit 1, or at reset;
DONE also at acceptance. -/
def Obligations.StatusBitsFallOnlyAsListed : Prop :=
  ∀ s t : State, step s = .next t → ¬ resetTurn s →
    let cleared (b : Nat) := ∃ v : Word, v.getLsbD b = true ∧ s.HostWrites .status v ∧ t.status = s.status.clearBits v ∧
      t.phase = s.phase
    (s.status.ill = true → t.status.ill = false → cleared 2) ∧
      (s.status.bsyerr = true → t.status.bsyerr = false → cleared 3) ∧
      (s.status.perr = true → t.status.perr = false → cleared 4) ∧
      (s.status.berr = true → t.status.berr = false → cleared 5) ∧
      (s.status.done = true → t.status.done = false → cleared 1 ∨ (s.phase = .idle ∧ t.phase ≠ .idle))

/-- R82, R84: the block's own steps change memory only by a running TABLE's write of the one aligned word of a pending cell, which
leaves P. -/
def Obligations.BlockWritesOnlyTheTablesCells : Prop :=
  ∀ (s t : State) (p : Nat × Nat) (rest : List Turn), s.Coherent → s.sched = .block p :: rest → step s = .next t →
    t.mem ≠ s.mem →
    s.phase = .run .table ∧ ∃ r c, s.pending.mem r c = true ∧ t.pending.mem r c = false ∧
      cellAddr s.tableBase s.grade r c % 4 = 0 ∧
      ∀ x, t.mem.read x ≠ s.mem.read x →
        cellAddr s.tableBase s.grade r c ≤ x ∧ x < cellAddr s.tableBase s.grade r c + 4

/-- R47, R13: no step changes the parameters, so CAPS never changes, not even at reset. -/
def Obligations.ParametersAndCapsNeverChange : Prop :=
  ∀ s t : State, step s = .next t → t.cfg = s.cfg ∧ hostRead (some .caps) t = hostRead (some .caps) s

/-! Invariants -/

/-- R57: the reset state meets every invariant. -/
def Obligations.ResetMeetsTheInvariants : Prop := inv State.reset

/-- R50, R51, R52, R37, R58, R44: every step keeps the relations between the registers, and memory's canonical form. -/
def Obligations.StepKeepsCoherence : Prop :=
  ∀ s t : State, s.Coherent → step s = .next t → t.Coherent

/-- R151, R154: every step keeps a running MUL on its way to multiply(lf, lg, lip, ln). -/
def Obligations.StepKeepsMulProgress : Prop :=
  ∀ s t : State, s.MulProgress → step s = .next t → t.MulProgress

/-- R214, R89, R90: every step keeps a running TABLE on its way: the cells that left P hold their values, and the others the bytes
they held at acceptance. -/
def Obligations.StepKeepsTableProgress : Prop :=
  ∀ s t : State, s.Coherent → s.TableProgress → step s = .next t → t.TableProgress

/-- R251: from every state that meets the invariants, a running command completes after a bounded number of block steps, whatever
cells the turns pick. -/
def Obligations.RunningCommandsCompleteInBoundedSteps : Prop :=
  ∀ (s : State) (i : Instr) (picks : List (Nat × Nat)), s.Coherent → s.phase = .run i →
    s.sched = picks.map .block → stepsLeft i s ≤ picks.length →
    ∃ m t, 1 ≤ m ∧ m ≤ stepsLeft i s ∧ core.run m s = .next t ∧ t.phase = .idle ∧ t.status.done = true

/-- R215, R86, R81: when TABLE completes with P empty, every cell of the table holds its value, little-endian, and DONE is set. -/
def Obligations.CompletedTableHoldsEveryCell : Prop :=
  ∀ s : State, s.TableProgress → s.phase = .run .table → s.pf = false → s.pending = .empty →
    ∃ t, exec .table s = .next t ∧ t.phase = .idle ∧ t.status.done = true ∧ t.result = s.result ∧
      ∀ r c j, r < 2 ^ s.grade → c < 2 ^ s.grade → j < 4 →
        t.mem.read (cellAddr s.tableBase s.grade r c + j) =
          some ((multiply (BitVec.ofNat 32 r) (BitVec.ofNat 32 c) (ipRom s.grade) s.grade).extractLsb' (8 * j) 8)

/-- R216, R88: after a block step that ends a TABLE, with BERR or without, each cell of the table holds either its old bytes, those of
acceptance, or its value; and a cell whose new word a racing read has shown holds its value, so that a word that got no write
because of BERR was only read as the old word. -/
def Obligations.CellsAfterBerrAreOldOrNew : Prop :=
  ∀ (s t : State) (p : Nat × Nat) (rest : List Turn), s.TableProgress → s.phase = .run .table → s.pf = false →
    s.sched = .block p :: rest → step s = .next t → t.phase = .idle →
    (∀ r c, r < 2 ^ s.grade → c < 2 ^ s.grade →
      (∀ j, j < 4 → t.mem.read (cellAddr s.tableBase s.grade r c + j)
        = s.memAtAccept.read (cellAddr s.tableBase s.grade r c + j)) ∨
      t.mem.readLE (cellAddr s.tableBase s.grade r c) 4 = some (tableCell s.grade r c)) ∧
    (s.Coherent → ∀ r c, r < 2 ^ s.grade → c < 2 ^ s.grade → r * 2 ^ s.grade + c ∈ s.shown →
      t.mem.readLE (cellAddr s.tableBase s.grade r c) 4 = some (tableCell s.grade r c))

/-- R217: the order of the cell steps does not show: two runs of one TABLE that both complete without BERR, in any two orders,
leave the same memory. -/
def Obligations.CellOrderDoesNotShow : Prop :=
  ∀ (s t t' : State) (picks picks' : List (Nat × Nat)) (m m' : Nat), s.Coherent → s.TableProgress →
    s.phase = .run .table → s.pf = false → s.status.berr = false → s.host = [] →
    core.run m { s with sched := picks.map .block } = .next t →
    core.run m' { s with sched := picks'.map .block } = .next t' →
    t.phase = .idle → t'.phase = .idle → t.status.berr = false → t'.status.berr = false → t.mem = t'.mem

/-- R219: every table of grade 15 or more has a cell whose write is refused, whatever the base and the parameters. -/
def Obligations.LargeTablesHaveARefusedCell : Prop :=
  ∀ (cfg : Config) (b n : Nat), 15 ≤ n →
    ∃ r c, r < 2 ^ n ∧ c < 2 ^ n ∧ admitted cfg (cellAddr b n r c) = false

/-- R219: so a running TABLE of grade 15 or more ends only with BERR. -/
def Obligations.LargeTablesEndWithBerr : Prop :=
  ∀ (s t : State) (p : Nat × Nat) (rest : List Turn), s.Coherent → s.TableProgress → s.phase = .run .table →
    s.pf = false → 15 ≤ s.grade → s.sched = .block p :: rest → step s = .next t → t.phase = .idle →
    t.status.berr = true ∧ t.status.done = true

/-- R221: r and c of a cell that is written fit in 32 bits, so the multiply drops no bit of them. -/
def Obligations.WrittenCellsFitInAWord : Prop :=
  ∀ (cfg : Config) (b n r c : Nat), admitted cfg (cellAddr b n r c) = true → r < 2 ^ 30 ∧ c < 2 ^ 30

/-! Arithmetic -/

open Polynomial in
/-- R156: for valid operands the product is the remainder of f times g divided by ip, and lies below 2^n. -/
def Obligations.ProductIsTheRemainder : Prop :=
  ∀ (f g ip : Word) (n : Nat), validOperands n ip f g = true →
    (multiply f g ip n).toNat < 2 ^ n ∧ poly (multiply f g ip n) = (poly f * poly g) %ₘ poly ip

/-- R162: the laws of the arithmetic modulo ip, at every legal grade, for every modulus of that degree, reducible or not. -/
def Obligations.ArithmeticLawsModuloIp : Prop :=
  ∀ (f g h ip : Word) (n : Nat), validOperands n ip f g = true → h.toNat < 2 ^ n →
    multiply f 1 ip n = f ∧ multiply f 0 ip n = 0 ∧ multiply f g ip n = multiply g f ip n ∧
      multiply f (gf2nAdd g h) ip n = gf2nAdd (multiply f g ip n) (multiply f h ip n) ∧
      (multiply f g ip n).toNat < 2 ^ n ∧ gf2nAdd f f = 0 ∧ gf2nSub f g = gf2nAdd f g ∧
      multiply (multiply f g ip n) h ip n = multiply f (multiply g h ip n) ip n

/-- R157: at every grade from 1 on, the bits of the product at positions n and above are those of f when g[0] = 1, and 0
otherwise. -/
def Obligations.HighBitsOfTheProductComeFromF : Prop :=
  ∀ (f g ip : Word) (n : Nat), 1 ≤ n →
    multiply f g ip n &&& ~~~ mask n = if g.getLsbD 0 then f &&& ~~~ mask n else 0

/-- R159: only ip & mask(n) and g & mask(n) enter the product, so an ip of the wrong degree gives the product of the modulus of
degree n with the same low bits. -/
def Obligations.ProductReadsOnlyTheLowBitsOfIpAndG : Prop :=
  ∀ (f g ip : Word) (n : Nat),
    multiply f g ip n = multiply f (g &&& mask n) (ip &&& mask n) n ∧
      multiply f g ip n = multiply f g ((ip &&& mask n) ||| (1#32 <<< n)) n

open Polynomial in
/-- R160: grades above N_MAX. At 31 and 32 the product of operands below 2^n is the remainder modulo x^n plus the low bits of ip;
above 32 it is the low 32 bits of the unreduced product, for every ip. -/
def Obligations.GradesAboveTheLegalRange : Prop :=
  ∀ (f g ip : Word) (n : Nat),
    ((n = 31 ∨ n = 32) → f.toNat < 2 ^ n → g.toNat < 2 ^ n →
      poly (multiply f g ip n) = (poly f * poly g) %ₘ (X ^ n + poly (ip &&& mask n))) ∧
    (32 < n → ∀ i, i < 32 → (poly f * poly g).coeff i = if (multiply f g ip n).getLsbD i then 1 else 0)

/-- R158, R161: the corner cases of the multiply: grade 0, a zero operand, and g = 1. -/
def Obligations.MultiplyCornerCases : Prop :=
  ∀ (f g ip : Word) (n : Nat),
    multiply f g ip 0 = 0 ∧ multiply 0 g ip n = 0 ∧ multiply f 0 ip n = 0 ∧ (1 ≤ n → multiply f 1 ip n = f)

/-- R143: the laws of the adder, on all words. -/
def Obligations.AdderLaws : Prop :=
  ∀ a b c : Word, gf2nAdd a b = gf2nAdd b a ∧ gf2nAdd (gf2nAdd a b) c = gf2nAdd a (gf2nAdd b c) ∧
    gf2nAdd a a = 0 ∧ gf2nAdd a 0 = a ∧ gf2nSub a b = gf2nAdd a b ∧
    ∀ n, a.toNat < 2 ^ n → b.toNat < 2 ^ n → (gf2nAdd a b).toNat < 2 ^ n

/-- R195, R190, R191: at grades 1 to 31 the ROM's modulus has degree exactly n and is x^n + x + 1, or x + 1 at grade 1; at grade 0 and
from 32 on it is x + 1. -/
def Obligations.RomModulusHasDegreeN : Prop :=
  ∀ n : Nat,
    (1 ≤ n → n ≤ 31 → (ipRom n).getLsbD n = true ∧ (ipRom n).toNat < 2 ^ (n + 1)) ∧
      (2 ≤ n → n ≤ 31 → (ipRom n).toNat = 2 ^ n + 3) ∧ (n ≤ 1 ∨ 32 ≤ n → (ipRom n).toNat = 3)

/-- R194, R193: at a grade whose ROM modulus the rule lists as reducible, two non-zero elements, the factors of R193's table,
multiply to 0. -/
def Obligations.ReducibleRomGradesHaveZeroDivisors : Prop :=
  ∀ x ∈ [(5, 0x7, 0xD), (8, 0x7, 0x6D), (10, 0xB, 0xB9), (11, 0x7, 0x36D), (12, 0xD, 0x3A7), (13, 0x3B, 0x1A9),
      (14, 0x7, 0x1B6D), (16, 0x169, 0x17B), (17, 0x7, 0xDB6D), (18, 0x25, 0x259F), (19, 0xD, 0x1D3A7),
      (20, 0x7, 0x6DB6D), (21, 0xAB, 0x50D9), (23, 0x7, 0x36DB6D), (24, 0xB, 0x2E5CB9), (25, 0x67, 0xF254D),
      (26, 0x7, 0x1B6DB6D), (27, 0x19, 0xF591EB), (29, 0x7, 0xDB6DB6D)],
    (x.2.1 < 2 ^ x.1 ∧ x.2.2 < 2 ^ x.1) ∧
      multiply (BitVec.ofNat 32 x.2.1) (BitVec.ofNat 32 x.2.2) (ipRom x.1) x.1 = 0#32

/-- R218: the properties of a table of a legal grade: the bound, symmetry, the zero row and column, and the identity row. -/
def Obligations.TableCellsObeyTheListedProperties : Prop :=
  ∀ n r c : Nat, 1 ≤ n → n ≤ 30 → r < 2 ^ n → c < 2 ^ n →
    (tableCell n r c).toNat < 2 ^ n ∧ tableCell n r c = tableCell n c r ∧ tableCell n 0 c = 0 ∧ tableCell n r 0 = 0 ∧
      tableCell n 1 c = BitVec.ofNat 32 c
end

