-- ==== Sys2Proof/Laws/State.lean ====
section
/-! SUPPORT. One lemma for each field of the state and each shared update of it, so that no later proof unfolds an update. -/

namespace Sys2Proof.Machine

@[simp] theorem latch_cfg (op : Instr) (s : State) : (latch op s).cfg = s.cfg := rfl
@[simp] theorem latch_f (op : Instr) (s : State) : (latch op s).f = s.f := rfl
@[simp] theorem latch_g (op : Instr) (s : State) : (latch op s).g = s.g := rfl
@[simp] theorem latch_ip (op : Instr) (s : State) : (latch op s).ip = s.ip := rfl
@[simp] theorem latch_n (op : Instr) (s : State) : (latch op s).n = s.n := rfl
@[simp] theorem latch_result (op : Instr) (s : State) : (latch op s).result = s.result := rfl
@[simp] theorem latch_tbase (op : Instr) (s : State) : (latch op s).tbase = s.tbase := rfl
@[simp] theorem latch_status (op : Instr) (s : State) : (latch op s).status = s.status := rfl
@[simp] theorem latch_phase (op : Instr) (s : State) : (latch op s).phase = s.phase := rfl
@[simp] theorem latch_lop (op : Instr) (s : State) : (latch op s).lop = opcode op := rfl
@[simp] theorem latch_lf (op : Instr) (s : State) : (latch op s).lf = s.f := rfl
@[simp] theorem latch_lg (op : Instr) (s : State) : (latch op s).lg = s.g := rfl
@[simp] theorem latch_lip (op : Instr) (s : State) : (latch op s).lip = s.ip := rfl
@[simp] theorem latch_ln (op : Instr) (s : State) : (latch op s).ln = s.n := rfl
@[simp] theorem latch_ltb (op : Instr) (s : State) : (latch op s).ltb = s.tbase := rfl
@[simp] theorem latch_acc (op : Instr) (s : State) : (latch op s).acc = s.acc := rfl
@[simp] theorem latch_fw (op : Instr) (s : State) : (latch op s).fw = s.fw := rfl
@[simp] theorem latch_gw (op : Instr) (s : State) : (latch op s).gw = s.gw := rfl
@[simp] theorem latch_k (op : Instr) (s : State) : (latch op s).k = s.k := rfl
@[simp] theorem latch_tip (op : Instr) (s : State) : (latch op s).tip = s.tip := rfl
@[simp] theorem latch_pending (op : Instr) (s : State) : (latch op s).pending = s.pending := rfl
@[simp] theorem latch_pf (op : Instr) (s : State) : (latch op s).pf = s.pf := rfl
@[simp] theorem latch_mem (op : Instr) (s : State) : (latch op s).mem = s.mem := rfl
@[simp] theorem latch_memAtAccept (op : Instr) (s : State) : (latch op s).memAtAccept = s.mem := rfl
@[simp] theorem latch_shown (op : Instr) (s : State) : (latch op s).shown = [] := rfl
@[simp] theorem latch_host (op : Instr) (s : State) : (latch op s).host = s.host := rfl
@[simp] theorem latch_sched (op : Instr) (s : State) : (latch op s).sched = s.sched := rfl
@[simp] theorem latch_pick (op : Instr) (s : State) : (latch op s).pick = s.pick := rfl
@[simp] theorem latch_draw (op : Instr) (s : State) : (latch op s).draw = s.draw := rfl
@[simp] theorem latch_reads (op : Instr) (s : State) : (latch op s).reads = s.reads := rfl

@[simp] theorem complete_cfg (s : State) : (complete s).cfg = s.cfg := rfl
@[simp] theorem complete_f (s : State) : (complete s).f = s.f := rfl
@[simp] theorem complete_g (s : State) : (complete s).g = s.g := rfl
@[simp] theorem complete_ip (s : State) : (complete s).ip = s.ip := rfl
@[simp] theorem complete_n (s : State) : (complete s).n = s.n := rfl
@[simp] theorem complete_result (s : State) : (complete s).result = s.result := rfl
@[simp] theorem complete_tbase (s : State) : (complete s).tbase = s.tbase := rfl
@[simp] theorem complete_status (s : State) : (complete s).status = { s.status with done := true, perr := s.status.perr || s.pf } := rfl
@[simp] theorem complete_phase (s : State) : (complete s).phase = .idle := rfl
@[simp] theorem complete_lop (s : State) : (complete s).lop = s.lop := rfl
@[simp] theorem complete_lf (s : State) : (complete s).lf = s.lf := rfl
@[simp] theorem complete_lg (s : State) : (complete s).lg = s.lg := rfl
@[simp] theorem complete_lip (s : State) : (complete s).lip = s.lip := rfl
@[simp] theorem complete_ln (s : State) : (complete s).ln = s.ln := rfl
@[simp] theorem complete_ltb (s : State) : (complete s).ltb = s.ltb := rfl
@[simp] theorem complete_acc (s : State) : (complete s).acc = s.acc := rfl
@[simp] theorem complete_fw (s : State) : (complete s).fw = s.fw := rfl
@[simp] theorem complete_gw (s : State) : (complete s).gw = s.gw := rfl
@[simp] theorem complete_k (s : State) : (complete s).k = s.k := rfl
@[simp] theorem complete_tip (s : State) : (complete s).tip = s.tip := rfl
@[simp] theorem complete_pending (s : State) : (complete s).pending = s.pending := rfl
@[simp] theorem complete_pf (s : State) : (complete s).pf = false := rfl
@[simp] theorem complete_mem (s : State) : (complete s).mem = s.mem := rfl
@[simp] theorem complete_memAtAccept (s : State) : (complete s).memAtAccept = s.memAtAccept := rfl
@[simp] theorem complete_shown (s : State) : (complete s).shown = s.shown := rfl
@[simp] theorem complete_host (s : State) : (complete s).host = s.host := rfl
@[simp] theorem complete_sched (s : State) : (complete s).sched = s.sched := rfl
@[simp] theorem complete_pick (s : State) : (complete s).pick = s.pick := rfl
@[simp] theorem complete_draw (s : State) : (complete s).draw = s.draw := rfl
@[simp] theorem complete_reads (s : State) : (complete s).reads = s.reads := rfl

@[simp] theorem raise_ill_cfg (s : State) : (raise .ill s).cfg = s.cfg := rfl
@[simp] theorem raise_ill_f (s : State) : (raise .ill s).f = s.f := rfl
@[simp] theorem raise_ill_g (s : State) : (raise .ill s).g = s.g := rfl
@[simp] theorem raise_ill_ip (s : State) : (raise .ill s).ip = s.ip := rfl
@[simp] theorem raise_ill_n (s : State) : (raise .ill s).n = s.n := rfl
@[simp] theorem raise_ill_result (s : State) : (raise .ill s).result = s.result := rfl
@[simp] theorem raise_ill_tbase (s : State) : (raise .ill s).tbase = s.tbase := rfl
@[simp] theorem raise_ill_status (s : State) : (raise .ill s).status = { s.status with ill := true, done := true } := rfl
@[simp] theorem raise_ill_phase (s : State) : (raise .ill s).phase = s.phase := rfl
@[simp] theorem raise_ill_lop (s : State) : (raise .ill s).lop = s.lop := rfl
@[simp] theorem raise_ill_lf (s : State) : (raise .ill s).lf = s.lf := rfl
@[simp] theorem raise_ill_lg (s : State) : (raise .ill s).lg = s.lg := rfl
@[simp] theorem raise_ill_lip (s : State) : (raise .ill s).lip = s.lip := rfl
@[simp] theorem raise_ill_ln (s : State) : (raise .ill s).ln = s.ln := rfl
@[simp] theorem raise_ill_ltb (s : State) : (raise .ill s).ltb = s.ltb := rfl
@[simp] theorem raise_ill_acc (s : State) : (raise .ill s).acc = s.acc := rfl
@[simp] theorem raise_ill_fw (s : State) : (raise .ill s).fw = s.fw := rfl
@[simp] theorem raise_ill_gw (s : State) : (raise .ill s).gw = s.gw := rfl
@[simp] theorem raise_ill_k (s : State) : (raise .ill s).k = s.k := rfl
@[simp] theorem raise_ill_tip (s : State) : (raise .ill s).tip = s.tip := rfl
@[simp] theorem raise_ill_pending (s : State) : (raise .ill s).pending = s.pending := rfl
@[simp] theorem raise_ill_pf (s : State) : (raise .ill s).pf = s.pf := rfl
@[simp] theorem raise_ill_mem (s : State) : (raise .ill s).mem = s.mem := rfl
@[simp] theorem raise_ill_memAtAccept (s : State) : (raise .ill s).memAtAccept = s.memAtAccept := rfl
@[simp] theorem raise_ill_shown (s : State) : (raise .ill s).shown = s.shown := rfl
@[simp] theorem raise_ill_host (s : State) : (raise .ill s).host = s.host := rfl
@[simp] theorem raise_ill_sched (s : State) : (raise .ill s).sched = s.sched := rfl
@[simp] theorem raise_ill_pick (s : State) : (raise .ill s).pick = s.pick := rfl
@[simp] theorem raise_ill_draw (s : State) : (raise .ill s).draw = s.draw := rfl
@[simp] theorem raise_ill_reads (s : State) : (raise .ill s).reads = s.reads := rfl

@[simp] theorem raise_bsyerr_cfg (s : State) : (raise .bsyerr s).cfg = s.cfg := rfl
@[simp] theorem raise_bsyerr_f (s : State) : (raise .bsyerr s).f = s.f := rfl
@[simp] theorem raise_bsyerr_g (s : State) : (raise .bsyerr s).g = s.g := rfl
@[simp] theorem raise_bsyerr_ip (s : State) : (raise .bsyerr s).ip = s.ip := rfl
@[simp] theorem raise_bsyerr_n (s : State) : (raise .bsyerr s).n = s.n := rfl
@[simp] theorem raise_bsyerr_result (s : State) : (raise .bsyerr s).result = s.result := rfl
@[simp] theorem raise_bsyerr_tbase (s : State) : (raise .bsyerr s).tbase = s.tbase := rfl
@[simp] theorem raise_bsyerr_status (s : State) : (raise .bsyerr s).status = { s.status with bsyerr := true } := rfl
@[simp] theorem raise_bsyerr_phase (s : State) : (raise .bsyerr s).phase = s.phase := rfl
@[simp] theorem raise_bsyerr_lop (s : State) : (raise .bsyerr s).lop = s.lop := rfl
@[simp] theorem raise_bsyerr_lf (s : State) : (raise .bsyerr s).lf = s.lf := rfl
@[simp] theorem raise_bsyerr_lg (s : State) : (raise .bsyerr s).lg = s.lg := rfl
@[simp] theorem raise_bsyerr_lip (s : State) : (raise .bsyerr s).lip = s.lip := rfl
@[simp] theorem raise_bsyerr_ln (s : State) : (raise .bsyerr s).ln = s.ln := rfl
@[simp] theorem raise_bsyerr_ltb (s : State) : (raise .bsyerr s).ltb = s.ltb := rfl
@[simp] theorem raise_bsyerr_acc (s : State) : (raise .bsyerr s).acc = s.acc := rfl
@[simp] theorem raise_bsyerr_fw (s : State) : (raise .bsyerr s).fw = s.fw := rfl
@[simp] theorem raise_bsyerr_gw (s : State) : (raise .bsyerr s).gw = s.gw := rfl
@[simp] theorem raise_bsyerr_k (s : State) : (raise .bsyerr s).k = s.k := rfl
@[simp] theorem raise_bsyerr_tip (s : State) : (raise .bsyerr s).tip = s.tip := rfl
@[simp] theorem raise_bsyerr_pending (s : State) : (raise .bsyerr s).pending = s.pending := rfl
@[simp] theorem raise_bsyerr_pf (s : State) : (raise .bsyerr s).pf = s.pf := rfl
@[simp] theorem raise_bsyerr_mem (s : State) : (raise .bsyerr s).mem = s.mem := rfl
@[simp] theorem raise_bsyerr_memAtAccept (s : State) : (raise .bsyerr s).memAtAccept = s.memAtAccept := rfl
@[simp] theorem raise_bsyerr_shown (s : State) : (raise .bsyerr s).shown = s.shown := rfl
@[simp] theorem raise_bsyerr_host (s : State) : (raise .bsyerr s).host = s.host := rfl
@[simp] theorem raise_bsyerr_sched (s : State) : (raise .bsyerr s).sched = s.sched := rfl
@[simp] theorem raise_bsyerr_pick (s : State) : (raise .bsyerr s).pick = s.pick := rfl
@[simp] theorem raise_bsyerr_draw (s : State) : (raise .bsyerr s).draw = s.draw := rfl
@[simp] theorem raise_bsyerr_reads (s : State) : (raise .bsyerr s).reads = s.reads := rfl

@[simp] theorem raise_perr_cfg (s : State) : (raise .perr s).cfg = s.cfg := rfl
@[simp] theorem raise_perr_f (s : State) : (raise .perr s).f = s.f := rfl
@[simp] theorem raise_perr_g (s : State) : (raise .perr s).g = s.g := rfl
@[simp] theorem raise_perr_ip (s : State) : (raise .perr s).ip = s.ip := rfl
@[simp] theorem raise_perr_n (s : State) : (raise .perr s).n = s.n := rfl
@[simp] theorem raise_perr_result (s : State) : (raise .perr s).result = s.result := rfl
@[simp] theorem raise_perr_tbase (s : State) : (raise .perr s).tbase = s.tbase := rfl
@[simp] theorem raise_perr_status (s : State) : (raise .perr s).status = s.status := rfl
@[simp] theorem raise_perr_phase (s : State) : (raise .perr s).phase = s.phase := rfl
@[simp] theorem raise_perr_lop (s : State) : (raise .perr s).lop = s.lop := rfl
@[simp] theorem raise_perr_lf (s : State) : (raise .perr s).lf = s.lf := rfl
@[simp] theorem raise_perr_lg (s : State) : (raise .perr s).lg = s.lg := rfl
@[simp] theorem raise_perr_lip (s : State) : (raise .perr s).lip = s.lip := rfl
@[simp] theorem raise_perr_ln (s : State) : (raise .perr s).ln = s.ln := rfl
@[simp] theorem raise_perr_ltb (s : State) : (raise .perr s).ltb = s.ltb := rfl
@[simp] theorem raise_perr_acc (s : State) : (raise .perr s).acc = s.acc := rfl
@[simp] theorem raise_perr_fw (s : State) : (raise .perr s).fw = s.fw := rfl
@[simp] theorem raise_perr_gw (s : State) : (raise .perr s).gw = s.gw := rfl
@[simp] theorem raise_perr_k (s : State) : (raise .perr s).k = s.k := rfl
@[simp] theorem raise_perr_tip (s : State) : (raise .perr s).tip = s.tip := rfl
@[simp] theorem raise_perr_pending (s : State) : (raise .perr s).pending = s.pending := rfl
@[simp] theorem raise_perr_pf (s : State) : (raise .perr s).pf = true := rfl
@[simp] theorem raise_perr_mem (s : State) : (raise .perr s).mem = s.mem := rfl
@[simp] theorem raise_perr_memAtAccept (s : State) : (raise .perr s).memAtAccept = s.memAtAccept := rfl
@[simp] theorem raise_perr_shown (s : State) : (raise .perr s).shown = s.shown := rfl
@[simp] theorem raise_perr_host (s : State) : (raise .perr s).host = s.host := rfl
@[simp] theorem raise_perr_sched (s : State) : (raise .perr s).sched = s.sched := rfl
@[simp] theorem raise_perr_pick (s : State) : (raise .perr s).pick = s.pick := rfl
@[simp] theorem raise_perr_draw (s : State) : (raise .perr s).draw = s.draw := rfl
@[simp] theorem raise_perr_reads (s : State) : (raise .perr s).reads = s.reads := rfl

@[simp] theorem raise_berr_cfg (s : State) : (raise .berr s).cfg = s.cfg := rfl
@[simp] theorem raise_berr_f (s : State) : (raise .berr s).f = s.f := rfl
@[simp] theorem raise_berr_g (s : State) : (raise .berr s).g = s.g := rfl
@[simp] theorem raise_berr_ip (s : State) : (raise .berr s).ip = s.ip := rfl
@[simp] theorem raise_berr_n (s : State) : (raise .berr s).n = s.n := rfl
@[simp] theorem raise_berr_result (s : State) : (raise .berr s).result = s.result := rfl
@[simp] theorem raise_berr_tbase (s : State) : (raise .berr s).tbase = s.tbase := rfl
@[simp] theorem raise_berr_status (s : State) : (raise .berr s).status = { s.status with berr := true, done := true, perr := s.status.perr || s.pf } := rfl
@[simp] theorem raise_berr_phase (s : State) : (raise .berr s).phase = .idle := rfl
@[simp] theorem raise_berr_lop (s : State) : (raise .berr s).lop = s.lop := rfl
@[simp] theorem raise_berr_lf (s : State) : (raise .berr s).lf = s.lf := rfl
@[simp] theorem raise_berr_lg (s : State) : (raise .berr s).lg = s.lg := rfl
@[simp] theorem raise_berr_lip (s : State) : (raise .berr s).lip = s.lip := rfl
@[simp] theorem raise_berr_ln (s : State) : (raise .berr s).ln = s.ln := rfl
@[simp] theorem raise_berr_ltb (s : State) : (raise .berr s).ltb = s.ltb := rfl
@[simp] theorem raise_berr_acc (s : State) : (raise .berr s).acc = s.acc := rfl
@[simp] theorem raise_berr_fw (s : State) : (raise .berr s).fw = s.fw := rfl
@[simp] theorem raise_berr_gw (s : State) : (raise .berr s).gw = s.gw := rfl
@[simp] theorem raise_berr_k (s : State) : (raise .berr s).k = s.k := rfl
@[simp] theorem raise_berr_tip (s : State) : (raise .berr s).tip = s.tip := rfl
@[simp] theorem raise_berr_pending (s : State) : (raise .berr s).pending = .empty := rfl
@[simp] theorem raise_berr_pf (s : State) : (raise .berr s).pf = false := rfl
@[simp] theorem raise_berr_mem (s : State) : (raise .berr s).mem = s.mem := rfl
@[simp] theorem raise_berr_memAtAccept (s : State) : (raise .berr s).memAtAccept = s.memAtAccept := rfl
@[simp] theorem raise_berr_shown (s : State) : (raise .berr s).shown = s.shown := rfl
@[simp] theorem raise_berr_host (s : State) : (raise .berr s).host = s.host := rfl
@[simp] theorem raise_berr_sched (s : State) : (raise .berr s).sched = s.sched := rfl
@[simp] theorem raise_berr_pick (s : State) : (raise .berr s).pick = s.pick := rfl
@[simp] theorem raise_berr_draw (s : State) : (raise .berr s).draw = s.draw := rfl
@[simp] theorem raise_berr_reads (s : State) : (raise .berr s).reads = s.reads := rfl

@[simp] theorem writeResult_cfg (v : Word) (s : State) : (writeResult v s).cfg = s.cfg := rfl
@[simp] theorem writeResult_f (v : Word) (s : State) : (writeResult v s).f = s.f := rfl
@[simp] theorem writeResult_g (v : Word) (s : State) : (writeResult v s).g = s.g := rfl
@[simp] theorem writeResult_ip (v : Word) (s : State) : (writeResult v s).ip = s.ip := rfl
@[simp] theorem writeResult_n (v : Word) (s : State) : (writeResult v s).n = s.n := rfl
@[simp] theorem writeResult_result (v : Word) (s : State) : (writeResult v s).result = v := rfl
@[simp] theorem writeResult_tbase (v : Word) (s : State) : (writeResult v s).tbase = s.tbase := rfl
@[simp] theorem writeResult_status (v : Word) (s : State) : (writeResult v s).status = s.status := rfl
@[simp] theorem writeResult_phase (v : Word) (s : State) : (writeResult v s).phase = s.phase := rfl
@[simp] theorem writeResult_lop (v : Word) (s : State) : (writeResult v s).lop = s.lop := rfl
@[simp] theorem writeResult_lf (v : Word) (s : State) : (writeResult v s).lf = s.lf := rfl
@[simp] theorem writeResult_lg (v : Word) (s : State) : (writeResult v s).lg = s.lg := rfl
@[simp] theorem writeResult_lip (v : Word) (s : State) : (writeResult v s).lip = s.lip := rfl
@[simp] theorem writeResult_ln (v : Word) (s : State) : (writeResult v s).ln = s.ln := rfl
@[simp] theorem writeResult_ltb (v : Word) (s : State) : (writeResult v s).ltb = s.ltb := rfl
@[simp] theorem writeResult_acc (v : Word) (s : State) : (writeResult v s).acc = s.acc := rfl
@[simp] theorem writeResult_fw (v : Word) (s : State) : (writeResult v s).fw = s.fw := rfl
@[simp] theorem writeResult_gw (v : Word) (s : State) : (writeResult v s).gw = s.gw := rfl
@[simp] theorem writeResult_k (v : Word) (s : State) : (writeResult v s).k = s.k := rfl
@[simp] theorem writeResult_tip (v : Word) (s : State) : (writeResult v s).tip = s.tip := rfl
@[simp] theorem writeResult_pending (v : Word) (s : State) : (writeResult v s).pending = s.pending := rfl
@[simp] theorem writeResult_pf (v : Word) (s : State) : (writeResult v s).pf = s.pf := rfl
@[simp] theorem writeResult_mem (v : Word) (s : State) : (writeResult v s).mem = s.mem := rfl
@[simp] theorem writeResult_memAtAccept (v : Word) (s : State) : (writeResult v s).memAtAccept = s.memAtAccept := rfl
@[simp] theorem writeResult_shown (v : Word) (s : State) : (writeResult v s).shown = s.shown := rfl
@[simp] theorem writeResult_host (v : Word) (s : State) : (writeResult v s).host = s.host := rfl
@[simp] theorem writeResult_sched (v : Word) (s : State) : (writeResult v s).sched = s.sched := rfl
@[simp] theorem writeResult_pick (v : Word) (s : State) : (writeResult v s).pick = s.pick := rfl
@[simp] theorem writeResult_draw (v : Word) (s : State) : (writeResult v s).draw = s.draw := rfl
@[simp] theorem writeResult_reads (v : Word) (s : State) : (writeResult v s).reads = s.reads := rfl

@[simp] theorem logRead_cfg (v : Word) (s : State) : (logRead v s).cfg = s.cfg := rfl
@[simp] theorem logRead_f (v : Word) (s : State) : (logRead v s).f = s.f := rfl
@[simp] theorem logRead_g (v : Word) (s : State) : (logRead v s).g = s.g := rfl
@[simp] theorem logRead_ip (v : Word) (s : State) : (logRead v s).ip = s.ip := rfl
@[simp] theorem logRead_n (v : Word) (s : State) : (logRead v s).n = s.n := rfl
@[simp] theorem logRead_result (v : Word) (s : State) : (logRead v s).result = s.result := rfl
@[simp] theorem logRead_tbase (v : Word) (s : State) : (logRead v s).tbase = s.tbase := rfl
@[simp] theorem logRead_status (v : Word) (s : State) : (logRead v s).status = s.status := rfl
@[simp] theorem logRead_phase (v : Word) (s : State) : (logRead v s).phase = s.phase := rfl
@[simp] theorem logRead_lop (v : Word) (s : State) : (logRead v s).lop = s.lop := rfl
@[simp] theorem logRead_lf (v : Word) (s : State) : (logRead v s).lf = s.lf := rfl
@[simp] theorem logRead_lg (v : Word) (s : State) : (logRead v s).lg = s.lg := rfl
@[simp] theorem logRead_lip (v : Word) (s : State) : (logRead v s).lip = s.lip := rfl
@[simp] theorem logRead_ln (v : Word) (s : State) : (logRead v s).ln = s.ln := rfl
@[simp] theorem logRead_ltb (v : Word) (s : State) : (logRead v s).ltb = s.ltb := rfl
@[simp] theorem logRead_acc (v : Word) (s : State) : (logRead v s).acc = s.acc := rfl
@[simp] theorem logRead_fw (v : Word) (s : State) : (logRead v s).fw = s.fw := rfl
@[simp] theorem logRead_gw (v : Word) (s : State) : (logRead v s).gw = s.gw := rfl
@[simp] theorem logRead_k (v : Word) (s : State) : (logRead v s).k = s.k := rfl
@[simp] theorem logRead_tip (v : Word) (s : State) : (logRead v s).tip = s.tip := rfl
@[simp] theorem logRead_pending (v : Word) (s : State) : (logRead v s).pending = s.pending := rfl
@[simp] theorem logRead_pf (v : Word) (s : State) : (logRead v s).pf = s.pf := rfl
@[simp] theorem logRead_mem (v : Word) (s : State) : (logRead v s).mem = s.mem := rfl
@[simp] theorem logRead_memAtAccept (v : Word) (s : State) : (logRead v s).memAtAccept = s.memAtAccept := rfl
@[simp] theorem logRead_shown (v : Word) (s : State) : (logRead v s).shown = s.shown := rfl
@[simp] theorem logRead_host (v : Word) (s : State) : (logRead v s).host = s.host := rfl
@[simp] theorem logRead_sched (v : Word) (s : State) : (logRead v s).sched = s.sched := rfl
@[simp] theorem logRead_pick (v : Word) (s : State) : (logRead v s).pick = s.pick := rfl
@[simp] theorem logRead_draw (v : Word) (s : State) : (logRead v s).draw = s.draw := rfl
@[simp] theorem logRead_reads (v : Word) (s : State) : (logRead v s).reads = v :: s.reads := rfl

@[simp] theorem mulInit_cfg (s : State) : (mulInit s).cfg = s.cfg := rfl
@[simp] theorem mulInit_f (s : State) : (mulInit s).f = s.f := rfl
@[simp] theorem mulInit_g (s : State) : (mulInit s).g = s.g := rfl
@[simp] theorem mulInit_ip (s : State) : (mulInit s).ip = s.ip := rfl
@[simp] theorem mulInit_n (s : State) : (mulInit s).n = s.n := rfl
@[simp] theorem mulInit_result (s : State) : (mulInit s).result = s.result := rfl
@[simp] theorem mulInit_tbase (s : State) : (mulInit s).tbase = s.tbase := rfl
@[simp] theorem mulInit_status (s : State) : (mulInit s).status = s.status := rfl
@[simp] theorem mulInit_phase (s : State) : (mulInit s).phase = s.phase := rfl
@[simp] theorem mulInit_lop (s : State) : (mulInit s).lop = s.lop := rfl
@[simp] theorem mulInit_lf (s : State) : (mulInit s).lf = s.lf := rfl
@[simp] theorem mulInit_lg (s : State) : (mulInit s).lg = s.lg := rfl
@[simp] theorem mulInit_lip (s : State) : (mulInit s).lip = s.lip := rfl
@[simp] theorem mulInit_ln (s : State) : (mulInit s).ln = s.ln := rfl
@[simp] theorem mulInit_ltb (s : State) : (mulInit s).ltb = s.ltb := rfl
@[simp] theorem mulInit_acc (s : State) : (mulInit s).acc = 0 := rfl
@[simp] theorem mulInit_fw (s : State) : (mulInit s).fw = s.lf := rfl
@[simp] theorem mulInit_gw (s : State) : (mulInit s).gw = s.lg := rfl
@[simp] theorem mulInit_k (s : State) : (mulInit s).k = 0 := rfl
@[simp] theorem mulInit_tip (s : State) : (mulInit s).tip = s.tip := rfl
@[simp] theorem mulInit_pending (s : State) : (mulInit s).pending = s.pending := rfl
@[simp] theorem mulInit_pf (s : State) : (mulInit s).pf = s.pf := rfl
@[simp] theorem mulInit_mem (s : State) : (mulInit s).mem = s.mem := rfl
@[simp] theorem mulInit_memAtAccept (s : State) : (mulInit s).memAtAccept = s.memAtAccept := rfl
@[simp] theorem mulInit_shown (s : State) : (mulInit s).shown = s.shown := rfl
@[simp] theorem mulInit_host (s : State) : (mulInit s).host = s.host := rfl
@[simp] theorem mulInit_sched (s : State) : (mulInit s).sched = s.sched := rfl
@[simp] theorem mulInit_pick (s : State) : (mulInit s).pick = s.pick := rfl
@[simp] theorem mulInit_draw (s : State) : (mulInit s).draw = s.draw := rfl
@[simp] theorem mulInit_reads (s : State) : (mulInit s).reads = s.reads := rfl

@[simp] theorem mulIteration_cfg (s : State) : (mulIteration s).cfg = s.cfg := rfl
@[simp] theorem mulIteration_f (s : State) : (mulIteration s).f = s.f := rfl
@[simp] theorem mulIteration_g (s : State) : (mulIteration s).g = s.g := rfl
@[simp] theorem mulIteration_ip (s : State) : (mulIteration s).ip = s.ip := rfl
@[simp] theorem mulIteration_n (s : State) : (mulIteration s).n = s.n := rfl
@[simp] theorem mulIteration_result (s : State) : (mulIteration s).result = s.result := rfl
@[simp] theorem mulIteration_tbase (s : State) : (mulIteration s).tbase = s.tbase := rfl
@[simp] theorem mulIteration_status (s : State) : (mulIteration s).status = s.status := rfl
@[simp] theorem mulIteration_phase (s : State) : (mulIteration s).phase = s.phase := rfl
@[simp] theorem mulIteration_lop (s : State) : (mulIteration s).lop = s.lop := rfl
@[simp] theorem mulIteration_lf (s : State) : (mulIteration s).lf = s.lf := rfl
@[simp] theorem mulIteration_lg (s : State) : (mulIteration s).lg = s.lg := rfl
@[simp] theorem mulIteration_lip (s : State) : (mulIteration s).lip = s.lip := rfl
@[simp] theorem mulIteration_ln (s : State) : (mulIteration s).ln = s.ln := rfl
@[simp] theorem mulIteration_ltb (s : State) : (mulIteration s).ltb = s.ltb := rfl
@[simp] theorem mulIteration_acc (s : State) : (mulIteration s).acc = accumulate s.acc s.fw s.gw := rfl
@[simp] theorem mulIteration_fw (s : State) : (mulIteration s).fw = reduceStep s.fw s.lip s.grade := rfl
@[simp] theorem mulIteration_gw (s : State) : (mulIteration s).gw = s.gw >>> 1 := rfl
@[simp] theorem mulIteration_k (s : State) : (mulIteration s).k = s.k + 1 := rfl
@[simp] theorem mulIteration_tip (s : State) : (mulIteration s).tip = s.tip := rfl
@[simp] theorem mulIteration_pending (s : State) : (mulIteration s).pending = s.pending := rfl
@[simp] theorem mulIteration_pf (s : State) : (mulIteration s).pf = s.pf := rfl
@[simp] theorem mulIteration_mem (s : State) : (mulIteration s).mem = s.mem := rfl
@[simp] theorem mulIteration_memAtAccept (s : State) : (mulIteration s).memAtAccept = s.memAtAccept := rfl
@[simp] theorem mulIteration_shown (s : State) : (mulIteration s).shown = s.shown := rfl
@[simp] theorem mulIteration_host (s : State) : (mulIteration s).host = s.host := rfl
@[simp] theorem mulIteration_sched (s : State) : (mulIteration s).sched = s.sched := rfl
@[simp] theorem mulIteration_pick (s : State) : (mulIteration s).pick = s.pick := rfl
@[simp] theorem mulIteration_draw (s : State) : (mulIteration s).draw = s.draw := rfl
@[simp] theorem mulIteration_reads (s : State) : (mulIteration s).reads = s.reads := rfl

@[simp] theorem tableInit_cfg (s : State) : (tableInit s).cfg = s.cfg := rfl
@[simp] theorem tableInit_f (s : State) : (tableInit s).f = s.f := rfl
@[simp] theorem tableInit_g (s : State) : (tableInit s).g = s.g := rfl
@[simp] theorem tableInit_ip (s : State) : (tableInit s).ip = s.ip := rfl
@[simp] theorem tableInit_n (s : State) : (tableInit s).n = s.n := rfl
@[simp] theorem tableInit_result (s : State) : (tableInit s).result = s.result := rfl
@[simp] theorem tableInit_tbase (s : State) : (tableInit s).tbase = s.tbase := rfl
@[simp] theorem tableInit_status (s : State) : (tableInit s).status = s.status := rfl
@[simp] theorem tableInit_phase (s : State) : (tableInit s).phase = s.phase := rfl
@[simp] theorem tableInit_lop (s : State) : (tableInit s).lop = s.lop := rfl
@[simp] theorem tableInit_lf (s : State) : (tableInit s).lf = s.lf := rfl
@[simp] theorem tableInit_lg (s : State) : (tableInit s).lg = s.lg := rfl
@[simp] theorem tableInit_lip (s : State) : (tableInit s).lip = s.lip := rfl
@[simp] theorem tableInit_ln (s : State) : (tableInit s).ln = s.ln := rfl
@[simp] theorem tableInit_ltb (s : State) : (tableInit s).ltb = s.ltb := rfl
@[simp] theorem tableInit_acc (s : State) : (tableInit s).acc = s.acc := rfl
@[simp] theorem tableInit_fw (s : State) : (tableInit s).fw = s.fw := rfl
@[simp] theorem tableInit_gw (s : State) : (tableInit s).gw = s.gw := rfl
@[simp] theorem tableInit_k (s : State) : (tableInit s).k = s.k := rfl
@[simp] theorem tableInit_tip (s : State) : (tableInit s).tip = ipRom s.grade := rfl
@[simp] theorem tableInit_pending (s : State) : (tableInit s).pending = fullGrid s.grade := rfl
@[simp] theorem tableInit_pf (s : State) : (tableInit s).pf = s.pf := rfl
@[simp] theorem tableInit_mem (s : State) : (tableInit s).mem = s.mem := rfl
@[simp] theorem tableInit_memAtAccept (s : State) : (tableInit s).memAtAccept = s.memAtAccept := rfl
@[simp] theorem tableInit_shown (s : State) : (tableInit s).shown = s.shown := rfl
@[simp] theorem tableInit_host (s : State) : (tableInit s).host = s.host := rfl
@[simp] theorem tableInit_sched (s : State) : (tableInit s).sched = s.sched := rfl
@[simp] theorem tableInit_pick (s : State) : (tableInit s).pick = s.pick := rfl
@[simp] theorem tableInit_draw (s : State) : (tableInit s).draw = s.draw := rfl
@[simp] theorem tableInit_reads (s : State) : (tableInit s).reads = s.reads := rfl

@[simp] theorem platformReset_cfg (s : State) : (platformReset s).cfg = s.cfg := rfl
@[simp] theorem platformReset_f (s : State) : (platformReset s).f = 0 := rfl
@[simp] theorem platformReset_g (s : State) : (platformReset s).g = 0 := rfl
@[simp] theorem platformReset_ip (s : State) : (platformReset s).ip = 0 := rfl
@[simp] theorem platformReset_n (s : State) : (platformReset s).n = 0 := rfl
@[simp] theorem platformReset_result (s : State) : (platformReset s).result = 0 := rfl
@[simp] theorem platformReset_tbase (s : State) : (platformReset s).tbase = 0 := rfl
@[simp] theorem platformReset_status (s : State) : (platformReset s).status = .clear := rfl
@[simp] theorem platformReset_phase (s : State) : (platformReset s).phase = .idle := rfl
@[simp] theorem platformReset_lop (s : State) : (platformReset s).lop = 0 := rfl
@[simp] theorem platformReset_lf (s : State) : (platformReset s).lf = 0 := rfl
@[simp] theorem platformReset_lg (s : State) : (platformReset s).lg = 0 := rfl
@[simp] theorem platformReset_lip (s : State) : (platformReset s).lip = 0 := rfl
@[simp] theorem platformReset_ln (s : State) : (platformReset s).ln = 0 := rfl
@[simp] theorem platformReset_ltb (s : State) : (platformReset s).ltb = 0 := rfl
@[simp] theorem platformReset_acc (s : State) : (platformReset s).acc = 0 := rfl
@[simp] theorem platformReset_fw (s : State) : (platformReset s).fw = 0 := rfl
@[simp] theorem platformReset_gw (s : State) : (platformReset s).gw = 0 := rfl
@[simp] theorem platformReset_k (s : State) : (platformReset s).k = 0 := rfl
@[simp] theorem platformReset_tip (s : State) : (platformReset s).tip = 0 := rfl
@[simp] theorem platformReset_pending (s : State) : (platformReset s).pending = .empty := rfl
@[simp] theorem platformReset_pf (s : State) : (platformReset s).pf = false := rfl
@[simp] theorem platformReset_mem (s : State) : (platformReset s).mem = s.mem := rfl
@[simp] theorem platformReset_memAtAccept (s : State) : (platformReset s).memAtAccept = [] := rfl
@[simp] theorem platformReset_shown (s : State) : (platformReset s).shown = [] := rfl
@[simp] theorem platformReset_host (s : State) : (platformReset s).host = s.host := rfl
@[simp] theorem platformReset_sched (s : State) : (platformReset s).sched = s.sched := rfl
@[simp] theorem platformReset_pick (s : State) : (platformReset s).pick = (0, 0) := rfl
@[simp] theorem platformReset_draw (s : State) : (platformReset s).draw = .old := rfl
@[simp] theorem platformReset_reads (s : State) : (platformReset s).reads = s.reads := rfl

@[simp] theorem latch_grade (op : Instr) (s : State) : (latch op s).grade = s.n.toNat := rfl
@[simp] theorem latch_tableBase (op : Instr) (s : State) : (latch op s).tableBase = s.tbase.toNat := rfl
@[simp] theorem complete_grade (s : State) : (complete s).grade = s.grade := rfl
@[simp] theorem complete_tableBase (s : State) : (complete s).tableBase = s.tableBase := rfl
@[simp] theorem raise_ill_grade (s : State) : (raise .ill s).grade = s.grade := rfl
@[simp] theorem raise_ill_tableBase (s : State) : (raise .ill s).tableBase = s.tableBase := rfl
@[simp] theorem raise_bsyerr_grade (s : State) : (raise .bsyerr s).grade = s.grade := rfl
@[simp] theorem raise_bsyerr_tableBase (s : State) : (raise .bsyerr s).tableBase = s.tableBase := rfl
@[simp] theorem raise_perr_grade (s : State) : (raise .perr s).grade = s.grade := rfl
@[simp] theorem raise_perr_tableBase (s : State) : (raise .perr s).tableBase = s.tableBase := rfl
@[simp] theorem raise_berr_grade (s : State) : (raise .berr s).grade = s.grade := rfl
@[simp] theorem raise_berr_tableBase (s : State) : (raise .berr s).tableBase = s.tableBase := rfl
@[simp] theorem writeResult_grade (v : Word) (s : State) : (writeResult v s).grade = s.grade := rfl
@[simp] theorem writeResult_tableBase (v : Word) (s : State) : (writeResult v s).tableBase = s.tableBase := rfl
@[simp] theorem logRead_grade (v : Word) (s : State) : (logRead v s).grade = s.grade := rfl
@[simp] theorem logRead_tableBase (v : Word) (s : State) : (logRead v s).tableBase = s.tableBase := rfl
@[simp] theorem mulInit_grade (s : State) : (mulInit s).grade = s.grade := rfl
@[simp] theorem mulInit_tableBase (s : State) : (mulInit s).tableBase = s.tableBase := rfl
@[simp] theorem mulIteration_grade (s : State) : (mulIteration s).grade = s.grade := rfl
@[simp] theorem mulIteration_tableBase (s : State) : (mulIteration s).tableBase = s.tableBase := rfl
@[simp] theorem tableInit_grade (s : State) : (tableInit s).grade = s.grade := rfl
@[simp] theorem tableInit_tableBase (s : State) : (tableInit s).tableBase = s.tableBase := rfl
@[simp] theorem platformReset_grade (s : State) : (platformReset s).grade = 0 := rfl
@[simp] theorem platformReset_tableBase (s : State) : (platformReset s).tableBase = 0 := rfl

end Sys2Proof.Machine
end

