-- ==== Sys2Proof/Laws/Arith.lean ====
section
/-! SUPPORT. The multiplier and the ROM, bit by bit. -/

namespace Sys2Proof.Machine

/-- Bit i of mask(n) (R16). -/
theorem getLsbD_mask (n i : Nat) : (mask n).getLsbD i = decide (i < n ∧ i < 32) := by
  unfold mask dataW
  rw [BitVec.getLsbD_ofNat, Nat.testBit_two_pow_sub_one]
  by_cases h1 : i < 32 <;> by_cases h2 : i < n <;> simp [h1, h2]

/-- Bit i of a reduction step (R152): below n, the bit shifted in plus the modulus bit where the top coefficient was 1. -/
theorem getLsbD_reduceStep (fw ip : Word) (n i : Nat) :
    (reduceStep fw ip n).getLsbD i =
      (decide (i < n ∧ i < 32) &&
        ((decide (0 < i) && fw.getLsbD (i - 1)) ^^ (fw.getLsbD (n - 1) && ip.getLsbD i))) := by
  unfold reduceStep
  rw [BitVec.getLsbD_xor, BitVec.getLsbD_and, getLsbD_mask, BitVec.getLsbD_shiftLeft]
  have hif : (if fw.getLsbD (n - 1) = true then ip &&& mask n else 0).getLsbD i
      = (fw.getLsbD (n - 1) && (ip.getLsbD i && decide (i < n ∧ i < 32))) := by
    split <;> rename_i h <;> simp [h, getLsbD_mask]
  rw [hif]
  by_cases h : i < n ∧ i < 32
  · by_cases h0 : i = 0
    · subst h0
      simp [h]
    · simp [h, Nat.pos_of_ne_zero h0, show ¬ i < 1 by omega]
  · simp [h]

/-- After a reduction step no bit at or above position n is left (R152). -/
theorem getLsbD_reduceStep_high (fw ip : Word) {n i : Nat} (h : n ≤ i) : (reduceStep fw ip n).getLsbD i = false := by
  rw [getLsbD_reduceStep, decide_eq_false (by omega), Bool.false_and]

/-- A reduction step reads the modulus only below position n (R159). -/
theorem reduceStep_congr (fw : Word) {ip ip' : Word} {n : Nat} (h : ip &&& mask n = ip' &&& mask n) :
    reduceStep fw ip n = reduceStep fw ip' n := by
  unfold reduceStep
  rw [h]

/-- One more iteration taken from the front (R151). -/
theorem mulLoop_succ (ip : Word) (n j : Nat) (acc fw gw : Word) :
    mulLoop ip n (j + 1) acc fw gw = mulLoop ip n j (accumulate acc fw gw) (reduceStep fw ip n) (gw >>> 1) := rfl

/-- The accumulator only collects: what it starts with is added to the loop's own sum. -/
theorem mulLoop_acc (ip : Word) (n j : Nat) (acc fw gw : Word) :
    mulLoop ip n j acc fw gw = acc ^^^ mulLoop ip n j 0 fw gw := by
  induction j generalizing acc fw gw with
  | zero => simp [mulLoop]
  | succ j ih =>
    rw [mulLoop_succ, mulLoop_succ, ih, ih (accumulate 0 fw gw)]
    unfold accumulate gf2nAdd
    split <;> simp [BitVec.xor_assoc]

/-- No iteration adds anything once the shifted g is 0 (R153). -/
theorem mulLoop_zero_gw (ip : Word) (n j : Nat) (acc fw : Word) : mulLoop ip n j acc fw 0 = acc := by
  induction j generalizing acc fw with
  | zero => rfl
  | succ j ih =>
    rw [mulLoop_succ, show (0 : Word) >>> 1 = 0 by decide, ih]
    simp [accumulate]

/-- The number of iterations never exceeds W (R153). -/
theorem iterations_le (n : Nat) : iterations n ≤ dataW := Nat.min_le_right _ _

end Sys2Proof.Machine
end

