-- ==== Sys2Proof/Laws/Lifecycle.lean ====
section
/-! SUPPORT. The command lifecycle: what `exec` answers in each phase, for every command at once. -/

namespace Sys2Proof.Machine

/-- The working registers a command sets up at acceptance. -/
def initOf (i : Instr) : State → State :=
  match i with
  | .mul => mulInit
  | .table => tableInit
  | .nop | .add | .sub | .irred => id

/-- The work step of a command. -/
def workOf (i : Instr) : State → Option State :=
  match i with
  | .mul => mulWork
  | .table => tableWork
  | .nop | .add | .sub | .irred => noWork

/-- What a command's completion does before the common last line. -/
def finishOf (i : Instr) : State → State :=
  match i with
  | .add => fun s => writeResult (gf2nAdd s.lf s.lg) s
  | .sub => fun s => writeResult (gf2nSub s.lf s.lg) s
  | .mul => fun s => writeResult s.acc s
  | .irred => fun s => writeResult (ipRom s.grade) s
  | .nop | .table => id

/-- TABLE has a next cell exactly while P is not empty (R243). -/
theorem nextCell_none {s : State} : nextCell s = none ↔ s.pending = .empty := by
  unfold nextCell
  split
  · simp_all
  · simp only
    split <;> simp_all

/-- TABLE's work step is the cell step of its next cell (R214). -/
theorem tableWork_some {s t : State} (h : tableWork s = some t) :
    ∃ r c, nextCell s = some (r, c) ∧ t = cellStep r c s := by
  unfold tableWork at h
  split at h
  · cases h
  · rename_i cell hc
    exact ⟨cell.1, cell.2, hc, (Option.some.inj h).symm⟩

theorem exec_eq_lifecycle (i : Instr) (s : State) :
    exec i s = lifecycle i (initOf i) (workOf i) (finishOf i) s := by
  cases i <;> rfl

/-- A command written while the block is idle is accepted (R241). -/
theorem exec_idle (i : Instr) {s : State} (h : s.phase = .idle) : exec i s = .next (accept i (initOf i) s) := by
  simp only [exec_eq_lifecycle, lifecycle, h]

/-- The running command's block step (R243, R244). -/
theorem exec_running {i : Instr} {s : State} (h : s.phase = .run i) :
    exec i s = .next (blockStep (workOf i) (finishOf i) s) := by
  simp only [exec_eq_lifecycle, lifecycle, h, if_true]

/-- A command is lost while another one runs (R242). -/
theorem exec_other {i j : Instr} {s : State} (h : s.phase = .run j) (hij : j ≠ i) :
    exec i s = .next (raise .bsyerr s) := by
  simp only [exec_eq_lifecycle, lifecycle, h, if_neg hij]

/-- Every command answers a next state in every state. -/
theorem exec_next (i : Instr) (s : State) : ∃ t, exec i s = .next t := by
  cases hp : s.phase with
  | idle => exact ⟨_, exec_idle i hp⟩
  | run j =>
    by_cases hij : j = i
    · subst hij
      exact ⟨_, exec_running hp⟩
    · exact ⟨_, exec_other hp hij⟩

@[simp] theorem busy_eq_true {s : State} : s.busy = true ↔ s.phase ≠ .idle := by
  simp [State.busy]

@[simp] theorem busy_eq_false {s : State} : s.busy = false ↔ s.phase = .idle := by
  simp [State.busy]

/-- The two outcomes of acceptance: the precondition fails and only pf is set, or it holds and the command is set up
(R241). -/
theorem accept_cases (i : Instr) (init : State → State) (s : State) :
    (s.cfg.checkPrecond = true ∧ precond i s.n.toNat s.ip = false ∧
        accept i init s = raise .perr { latch i s with status := { s.status with done := false }, phase := .run i, pf := false }) ∨
      (¬(s.cfg.checkPrecond = true ∧ precond i s.n.toNat s.ip = false) ∧
        accept i init s = init { latch i s with status := { s.status with done := false }, phase := .run i, pf := false }) := by
  by_cases h : s.cfg.checkPrecond = true ∧ precond i s.n.toNat s.ip = false
  · refine .inl ⟨h.1, h.2, ?_⟩
    have hc : (s.cfg.checkPrecond && !precond i s.n.toNat s.ip) = true := by simp [h.1, h.2]
    exact if_pos hc
  · refine .inr ⟨h, ?_⟩
    have hc : ¬ (s.cfg.checkPrecond && !precond i s.n.toNat s.ip) = true := by simpa using h
    exact if_neg hc

/-- The three outcomes of a block step (R243 to R245). -/
theorem blockStep_cases (work : State → Option State) (finish : State → State) (s : State) :
    (s.pf = true ∧ blockStep work finish s = complete s) ∨
      (s.pf = false ∧ ∃ t, work s = some t ∧ blockStep work finish s = t) ∨
      (s.pf = false ∧ work s = none ∧ blockStep work finish s = complete (finish s)) := by
  unfold blockStep
  cases hpf : s.pf with
  | true => exact .inl ⟨rfl, rfl⟩
  | false =>
    cases hw : work s with
    | some t => exact .inr (.inl ⟨rfl, t, rfl, rfl⟩)
    | none => exact .inr (.inr ⟨rfl, rfl, rfl⟩)

/-- Everything acceptance fixes in the block, whether or not the precondition fails (R241). -/
theorem accept_effect (i : Instr) (s : State) :
    let t := accept i (initOf i) s
    (t.f = s.f ∧ t.g = s.g ∧ t.ip = s.ip ∧ t.n = s.n ∧ t.tbase = s.tbase ∧ t.cfg = s.cfg ∧ t.result = s.result ∧
      t.mem = s.mem) ∧
    (t.lop = opcode i ∧ t.lf = s.f ∧ t.lg = s.g ∧ t.lip = s.ip ∧ t.ln = s.n ∧ t.ltb = s.tbase ∧ t.memAtAccept = s.mem ∧
      t.shown = []) ∧
    t.phase = .run i ∧ t.status = { s.status with done := false } := by
  intro t
  rcases accept_cases i (initOf i) s with ⟨-, -, he⟩ | ⟨-, he⟩
  · have ht : t = _ := he
    rw [ht]
    simp
  · have ht : t = _ := he
    rw [ht]
    cases i <;> simp [initOf]

/-- Everything a block step of the command `i` leaves and changes in the block, memory and working registers aside: a work
step changes none of it, and any other step ends the command (R243 to R245, R216). -/
theorem blockStep_effect (i : Instr) (s : State) :
    let t := blockStep (workOf i) (finishOf i) s
    (t.f = s.f ∧ t.g = s.g ∧ t.ip = s.ip ∧ t.n = s.n ∧ t.tbase = s.tbase ∧ t.cfg = s.cfg) ∧
    (t.lop = s.lop ∧ t.lf = s.lf ∧ t.lg = s.lg ∧ t.lip = s.lip ∧ t.ln = s.ln ∧ t.ltb = s.ltb ∧
      t.memAtAccept = s.memAtAccept ∧ t.shown = s.shown) ∧
    (t.status.ill = s.status.ill ∧ t.status.bsyerr = s.status.bsyerr) ∧
    ((t.phase = s.phase ∧ t.pf = s.pf ∧ t.status = s.status ∧ t.result = s.result) ∨
      (t.phase = .idle ∧ t.pf = false ∧ t.status.done = true ∧ t.status.perr = (s.status.perr || s.pf) ∧ t.mem = s.mem ∧
        ((t.status.berr = s.status.berr ∧
            (t.result = s.result ∨ (s.pf = false ∧
              ((i = .add ∧ t.result = s.lf ^^^ s.lg) ∨ (i = .sub ∧ t.result = s.lf ^^^ s.lg) ∨
                (i = .mul ∧ t.result = s.acc) ∨ (i = .irred ∧ t.result = ipRom s.ln.toNat))))) ∨
          (i = .table ∧ s.pf = false ∧ s.pending ≠ .empty ∧ t.pending = .empty ∧ t.status.berr = true ∧
            t.result = s.result)))) := by
  intro t
  rcases blockStep_cases (workOf i) (finishOf i) s with ⟨hpf, he⟩ | ⟨hpf, t', hw, he⟩ | ⟨hpf, hw, he⟩
  · have ht : t = complete s := he
    rw [ht]
    simp
  · have ht : t = t' := he
    rw [ht]
    cases i with
    | nop => cases hw
    | add => cases hw
    | sub => cases hw
    | irred => cases hw
    | mul =>
      simp only [workOf, mulWork] at hw
      split at hw
      · cases hw
        simp
      · cases hw
    | table =>
      obtain ⟨r, c, hcell, ht'⟩ := tableWork_some hw
      have hpend : s.pending ≠ .empty := fun he => by simp [nextCell_none.mpr he] at hcell
      rw [ht']
      unfold cellStep
      simp only
      split
      · simp
      · simp [hpf, hpend]
  · have ht : t = complete (finishOf i s) := he
    rw [ht]
    cases i <;> simp [finishOf, hpf, gf2nSub, gf2nAdd, State.grade]

end Sys2Proof.Machine
end

