-- ==== Sys2Proof/Laws/Memory.lean ====
section
/-! SUPPORT. Memory: reads after writes, the canonical form, and little-endian words. -/

namespace Sys2Proof.Machine

namespace Memory

theorem read_write_same (m : Memory) (a : Nat) (v : Byte) : (m.write a v).read a = some v := by
  induction m with
  | nil => simp [write, read]
  | cons x rest ih =>
    obtain ⟨b, u⟩ := x
    unfold write
    split
    · simp [read]
    · split
      · simp [read]
      · rw [read, if_neg (by omega)]
        exact ih

theorem read_write_other (m : Memory) {a b : Nat} (v : Byte) (h : b ≠ a) : (m.write a v).read b = m.read b := by
  induction m with
  | nil => simp [write, read, h.symm]
  | cons x rest ih =>
    obtain ⟨c, u⟩ := x
    unfold write
    split
    · rw [read, if_neg h.symm]
    · split
      · rename_i _ hac
        subst hac
        rw [read, read, if_neg h.symm, if_neg h.symm]
      · rw [read, read, ih]

/-- The addresses a write leaves listed are the old ones and its own. -/
theorem mem_write {m : Memory} {a : Nat} {v : Byte} {x : Host.Cell} (h : x ∈ m.write a v) : x = (a, v) ∨ x ∈ m := by
  induction m with
  | nil => simpa [write] using h
  | cons y rest ih =>
    obtain ⟨c, u⟩ := y
    unfold write at h
    split at h
    · simpa using h
    · split at h
      · rcases List.mem_cons.mp h with h | h
        · exact .inl h
        · exact .inr (List.mem_cons_of_mem _ h)
      · rcases List.mem_cons.mp h with h | h
        · exact .inr (h ▸ List.mem_cons_self ..)
        · exact (ih h).imp_right (List.mem_cons_of_mem _)

/-- A write below 2^32 keeps the canonical form. -/
theorem wf_write {m : Memory} {a : Nat} (v : Byte) (hm : m.wf) (ha : a < 2 ^ addrW) : (m.write a v).wf := by
  refine ⟨?_, fun x hx => ?_⟩
  · have hs := hm.1
    clear hm
    induction m with
    | nil => simp [write]
    | cons x rest ih =>
      obtain ⟨b, u⟩ := x
      rw [List.pairwise_cons] at hs
      unfold write
      split
      · rename_i hab
        refine List.pairwise_cons.mpr ⟨fun y hy => ?_, List.pairwise_cons.mpr hs⟩
        rcases List.mem_cons.mp hy with rfl | hy
        · exact hab
        · exact lt_trans hab (hs.1 y hy)
      · split
        · rename_i _ hab
          subst hab
          exact List.pairwise_cons.mpr hs
        · refine List.pairwise_cons.mpr ⟨fun y hy => ?_, ih hs.2⟩
          rcases mem_write hy with rfl | hy
          · show b < a
            omega
          · exact hs.1 y hy
  · rcases mem_write hx with rfl | hx
    · exact ha
    · exact hm.2 x hx

/-- A little-endian write that ends at or below 2^32 keeps the canonical form. -/
theorem wf_writeLE {m : Memory} {a width : Nat} (v : Word) (hm : m.wf) (ha : a + width ≤ 2 ^ addrW) :
    (m.writeLE a width v).wf := by
  induction width generalizing m a v with
  | zero => exact hm
  | succ w ih => exact ih _ (wf_write _ hm (by omega)) (by omega)

/-- A little-endian write changes no byte outside its own. -/
theorem read_writeLE_other (m : Memory) (a width : Nat) (v : Word) {b : Nat} (h : b < a ∨ a + width ≤ b) :
    (m.writeLE a width v).read b = m.read b := by
  induction width generalizing m a v with
  | zero => rfl
  | succ w ih => rw [writeLE, ih _ _ _ (by omega), read_write_other _ _ (by omega)]

/-- Byte j of a little-endian write holds bits 8j+7:8j of the value (R81). -/
theorem read_writeLE_byte (m : Memory) (a width : Nat) (v : Word) {j : Nat} (h : j < width) :
    (m.writeLE a width v).read (a + j) = some (v.extractLsb' (8 * j) 8) := by
  induction width generalizing m a v j with
  | zero => omega
  | succ w ih =>
    rw [writeLE]
    cases j with
    | zero =>
      rw [show a + 0 = a from rfl, read_writeLE_other _ _ _ _ (by omega), read_write_same]
      rfl
    | succ j =>
      rw [show a + (j + 1) = a + 1 + j by omega, ih _ _ _ (by omega)]
      congr 1
      ext i hi
      simp only [BitVec.getElem_extractLsb', BitVec.getLsbD_ushiftRight]
      congr 1
      omega

/-- Two memories that agree on the bytes of an access give the same value there. -/
theorem readLE_congr {m m' : Memory} {a width : Nat} (h : ∀ j, j < width → m.read (a + j) = m'.read (a + j)) :
    m.readLE a width = m'.readLE a width := by
  induction width generalizing a with
  | zero => rfl
  | succ w ih =>
    have h0 := h 0 (by omega)
    rw [Nat.add_zero] at h0
    rw [readLE, readLE, h0, ih fun j hj => by rw [show a + 1 + j = a + (j + 1) by omega]; exact h _ (by omega)]

/-- A little-endian word reads back as written. -/
theorem readLE_writeLE_word (m : Memory) (a : Nat) (v : Word) : (m.writeLE a 4 v).readLE a 4 = some v := by
  have hb : ∀ j, j < 4 → (m.writeLE a 4 v).read (a + j) = some (v.extractLsb' (8 * j) 8) :=
    fun j hj => read_writeLE_byte m a 4 v hj
  have h0 := hb 0 (by omega)
  have h1 := hb 1 (by omega)
  have h2 := hb 2 (by omega)
  have h3 := hb 3 (by omega)
  rw [Nat.add_zero] at h0
  simp only [readLE, show a + 1 + 1 = a + 2 by omega, show a + 2 + 1 = a + 3 by omega, h0, h1, h2, h3, Option.some.injEq]
  ext i hi
  simp only [BitVec.getElem_or, BitVec.getElem_shiftLeft, BitVec.getElem_setWidth, BitVec.getLsbD_extractLsb']
  rcases Nat.lt_or_ge i 8 with h | h
  · simp [h, BitVec.getLsbD_eq_getElem hi]
  · rcases Nat.lt_or_ge i 16 with h' | h'
    · simp [show ¬ i < 8 by omega, show i - 8 < 8 by omega, show 8 + (i - 8) = i by omega, BitVec.getLsbD_eq_getElem hi]
    · rcases Nat.lt_or_ge i 24 with h'' | h''
      · simp [show ¬ i < 8 by omega, show ¬ i - 8 < 8 by omega, show i - 8 - 8 < 8 by omega,
          show 16 + (i - 8 - 8) = i by omega, BitVec.getLsbD_eq_getElem hi]
      · simp [show ¬ i < 8 by omega, show ¬ i - 8 < 8 by omega, show ¬ i - 8 - 8 < 8 by omega,
          show i - 8 - 8 - 8 < 8 by omega, show 24 + (i - 8 - 8 - 8) = i by omega, BitVec.getLsbD_eq_getElem hi]

/-- An address below every listed one holds no byte. -/
theorem read_eq_none {m : Memory} {a : Nat} (h : ∀ x ∈ m, a < x.1) : m.read a = none := by
  induction m with
  | nil => rfl
  | cons x rest ih =>
    have hx := h x (List.mem_cons_self ..)
    rw [read, if_neg (by omega)]
    exact ih fun y hy => h y (List.mem_cons_of_mem _ hy)

/-- Canonical memories with the same bytes are equal lists. -/
theorem ext {m m' : Memory} (hm : m.wf) (hm' : m'.wf) (h : ∀ a, m.read a = m'.read a) : m = m' := by
  have hs := hm.1
  have hs' := hm'.1
  clear hm hm'
  induction m generalizing m' with
  | nil =>
    cases m' with
    | nil => rfl
    | cons y rest => simpa [read] using h y.1
  | cons x rest ih =>
    cases m' with
    | nil => simpa [read] using h x.1
    | cons y rest' =>
      rw [List.pairwise_cons] at hs hs'
      have hxy : x = y := by
        have hx := h x.1
        have hy := h y.1
        rcases lt_trichotomy x.1 y.1 with hlt | heq | hgt
        · rw [read, if_pos rfl, read, if_neg (by omega), read_eq_none fun z hz => lt_trans hlt (hs'.1 z hz)] at hx
          exact absurd hx (by simp)
        · rw [read, if_pos rfl, read, if_pos heq.symm] at hx
          exact Prod.ext heq (Option.some.inj hx)
        · rw [read, if_neg (by omega), read_eq_none fun z hz => lt_trans hgt (hs.1 z hz), read, if_pos rfl] at hy
          exact absurd hy (by simp)
      subst hxy
      refine congrArg _ (ih (m' := rest') (fun a => ?_) hs.2 hs'.2)
      have ha := h a
      rw [read, read] at ha
      split at ha
      · rename_i hxa
        rw [read_eq_none fun z hz => hxa ▸ hs.1 z hz, read_eq_none fun z hz => hxa ▸ hs'.1 z hz]
      · exact ha

end Memory

end Sys2Proof.Machine
end

