-- ==== Sys2Proof/Laws/PerInstr.lean ====
section
/-! SUPPORT. The encoding of each command, one lemma for each constructor. -/

namespace Sys2Proof.Laws.Encoding

open Sys2Proof

/-- A command is well formed, its word has RSVD = 0 and its own OP, which is a legal one, and decodes back to it (R111, R112,
R115). -/
def Statement (i : Instr) : Prop :=
  i.wf = true ∧ rsvdField (encode i) = 0 ∧ opField (encode i) = opcode i ∧ (opcode i).toNat ≤ 5 ∧
    decode (encode i) = .command i

theorem nop : Statement .nop := by unfold Statement; decide

theorem add : Statement .add := by unfold Statement; decide

theorem sub : Statement .sub := by unfold Statement; decide

theorem mul : Statement .mul := by unfold Statement; decide

theorem irred : Statement .irred := by unfold Statement; decide

theorem table : Statement .table := by unfold Statement; decide

end Sys2Proof.Laws.Encoding
end

