-- ==== Sys2Proof/Laws/Table.lean ====
section
/-! SUPPORT. The set of pending cells, the numbering of cells and their addresses. -/

namespace Sys2Proof.Machine

theorem mem_insertSorted {i x : Nat} {l : List Nat} : x ∈ insertSorted i l ↔ x = i ∨ x ∈ l := by
  induction l with
  | nil => simp [insertSorted]
  | cons j rest ih =>
    unfold insertSorted
    split
    · simp
    · split
      · rename_i _ hij
        simp [hij]
      · simp only [List.mem_cons, ih]
        tauto

theorem pairwise_insertSorted {i : Nat} {l : List Nat} (h : l.Pairwise (· < ·)) : (insertSorted i l).Pairwise (· < ·) := by
  induction l with
  | nil => simp [insertSorted]
  | cons j rest ih =>
    have hj := List.pairwise_cons.mp h
    unfold insertSorted
    split
    · rename_i hij
      refine List.pairwise_cons.mpr ⟨fun x hx => ?_, h⟩
      rcases List.mem_cons.mp hx with rfl | hx
      · exact hij
      · exact lt_trans hij (hj.1 x hx)
    · split
      · exact h
      · refine List.pairwise_cons.mpr ⟨fun x hx => ?_, ih hj.2⟩
        rcases mem_insertSorted.mp hx with rfl | hx
        · omega
        · exact hj.1 x hx

theorem length_insertSorted {i : Nat} {l : List Nat} (h : i ∉ l) : (insertSorted i l).length = l.length + 1 := by
  induction l with
  | nil => rfl
  | cons j rest ih =>
    simp only [List.mem_cons, not_or] at h
    unfold insertSorted
    split
    · rfl
    · rw [if_neg h.1, List.length_cons, ih h.2, List.length_cons]

/-- The first gap of a rising list is not in the list and lies at most the list's length above its start. -/
theorem firstGap_spec {i : Nat} {l : List Nat} (hs : l.Pairwise (· < ·)) (hi : ∀ x ∈ l, i ≤ x) :
    firstGap i l ∉ l ∧ i ≤ firstGap i l ∧ firstGap i l ≤ i + l.length := by
  induction l generalizing i with
  | nil => simp [firstGap]
  | cons j rest ih =>
    have hj := List.pairwise_cons.mp hs
    unfold firstGap
    split
    · rename_i hij
      subst hij
      obtain ⟨h1, h2, h3⟩ := ih (i := i + 1) hj.2 fun x hx => hj.1 x hx
      refine ⟨fun hm => ?_, by omega, by simp only [List.length_cons]; omega⟩
      rcases List.mem_cons.mp hm with h | h
      · omega
      · exact h1 h
    · rename_i hij
      have hlt : i < j := lt_of_le_of_ne (hi j (List.mem_cons_self ..)) hij
      refine ⟨fun hm => ?_, le_refl _, by omega⟩
      rcases List.mem_cons.mp hm with h | h
      · omega
      · exact absurd (hj.1 i h) (by omega)

theorem four_pow (n : Nat) : 4 ^ n = 2 ^ n * 2 ^ n := by
  rw [show 4 = 2 * 2 from rfl, Nat.mul_pow]

/-- The row-major number of a cell of the grid is below 4^n. -/
theorem cellNumber_lt {n r c : Nat} (hr : r < 2 ^ n) (hc : c < 2 ^ n) : r * 2 ^ n + c < 4 ^ n := by
  have h : (r + 1) * 2 ^ n ≤ 2 ^ n * 2 ^ n := Nat.mul_le_mul_right _ hr
  rw [Nat.add_mul, Nat.one_mul] at h
  rw [four_pow]
  omega

/-- Two cells of the grid with one number are one cell. -/
theorem cellNumber_inj {n r c r' c' : Nat} (hc : c < 2 ^ n) (hc' : c' < 2 ^ n)
    (h : r * 2 ^ n + c = r' * 2 ^ n + c') : r = r' ∧ c = c' := by
  have hd := congrArg (· / 2 ^ n) h
  have hm := congrArg (· % 2 ^ n) h
  simp only [Nat.mul_comm _ (2 ^ n), Nat.mul_add_div (Nat.two_pow_pos n), Nat.mul_add_mod, Nat.div_eq_of_lt hc,
    Nat.div_eq_of_lt hc', Nat.mod_eq_of_lt hc, Nat.mod_eq_of_lt hc', Nat.add_zero] at hd hm
  exact ⟨hd, hm⟩

/-- A number below 4^n is the number of the cell it splits into. -/
theorem cellNumber_split {n i : Nat} (h : i < 4 ^ n) :
    i / 2 ^ n < 2 ^ n ∧ i % 2 ^ n < 2 ^ n ∧ i / 2 ^ n * 2 ^ n + i % 2 ^ n = i := by
  refine ⟨?_, Nat.mod_lt _ (Nat.two_pow_pos n), Nat.div_add_mod' i _⟩
  rw [four_pow] at h
  exact Nat.div_lt_of_lt_mul h

theorem CellSet.mem_grid {n r c : Nat} {written : List Nat} :
    (CellSet.grid n written).mem r c = true ↔ r < 2 ^ n ∧ c < 2 ^ n ∧ r * 2 ^ n + c ∉ written := by
  simp [CellSet.mem, and_assoc]

/-- The chosen cell is pending (R214). -/
theorem chooseCell_mem {n : Nat} {written : List Nat} (pick : Nat × Nat) (h : (CellSet.grid n written).wf) :
    (CellSet.grid n written).mem (chooseCell n written pick).1 (chooseCell n written pick).2 = true := by
  unfold chooseCell
  split
  · assumption
  · obtain ⟨h1, -, h3⟩ := firstGap_spec (i := 0) h.1 fun x _ => Nat.zero_le x
    have hlt : firstGap 0 written < 4 ^ n := by
      have := h.2.2
      omega
    obtain ⟨hr, hc, he⟩ := cellNumber_split hlt
    rw [CellSet.mem_grid]
    exact ⟨hr, hc, he.symm ▸ h1⟩

/-- Every pending cell is taken when the turn picks it (R214, R217). -/
theorem chooseCell_pick {n : Nat} {written : List Nat} {pick : Nat × Nat}
    (h : (CellSet.grid n written).mem pick.1 pick.2 = true) : chooseCell n written pick = pick := if_pos h

/-- A rising list of 4^n numbers below 4^n holds them all. -/
theorem mem_of_full {l : List Nat} {m i : Nat} (hs : l.Pairwise (· < ·)) (hb : ∀ x ∈ l, x < m) (hl : m ≤ l.length)
    (hi : i < m) : i ∈ l := by
  have hnd : l.Nodup := hs.imp fun h => ne_of_lt h
  have hsub : l.toFinset ⊆ Finset.range m := fun x hx => Finset.mem_range.mpr (hb x (List.mem_toFinset.mp hx))
  have hcard : (Finset.range m).card ≤ l.toFinset.card := by
    rw [Finset.card_range, List.toFinset_card_of_nodup hnd]
    exact hl
  have heq := Finset.eq_of_subset_of_card_le hsub hcard
  exact List.mem_toFinset.mp (heq ▸ Finset.mem_range.mpr hi)

/-- Taking a pending cell out of P leaves exactly the other pending cells (R214). -/
theorem CellSet.mem_remove {p : CellSet} {r c r' c' : Nat} (hp : p.wf) (h : p.mem r c = true) :
    (p.remove r c).mem r' c' = true ↔ p.mem r' c' = true ∧ ¬(r' = r ∧ c' = c) := by
  cases p with
  | empty => simp [CellSet.mem] at h
  | grid n written =>
    obtain ⟨hr, hc, hm⟩ := CellSet.mem_grid.mp h
    have key : ∀ {x y}, x < 2 ^ n → y < 2 ^ n → (x * 2 ^ n + y = r * 2 ^ n + c ↔ x = r ∧ y = c) := fun hx hy =>
      ⟨fun he => cellNumber_inj hy hc he, fun ⟨hx', hy'⟩ => by rw [hx', hy']⟩
    unfold CellSet.remove
    simp only
    split
    · rw [CellSet.mem_grid, CellSet.mem_grid, mem_insertSorted]
      constructor
      · rintro ⟨hx, hy, hn⟩
        exact ⟨⟨hx, hy, fun hw => hn (.inr hw)⟩, fun he => hn (.inl ((key hx hy).mpr he))⟩
      · rintro ⟨⟨hx, hy, hn⟩, hne⟩
        exact ⟨hx, hy, fun hw => hw.elim (fun he => hne ((key hx hy).mp he)) hn⟩
    · rename_i hfull
      have hall : ∀ i, i < 4 ^ n → i ∈ insertSorted (r * 2 ^ n + c) written := fun i hi =>
        mem_of_full (pairwise_insertSorted hp.1)
          (fun x hx => (mem_insertSorted.mp hx).elim (fun he => he ▸ cellNumber_lt hr hc) (hp.2.1 x)) (by omega) hi
      simp only [CellSet.mem, Bool.false_eq_true, false_iff]
      rintro ⟨hx, hne⟩
      obtain ⟨hx1, hx2, hx3⟩ := CellSet.mem_grid.mp hx
      exact hne <| (key hx1 hx2).mp ((mem_insertSorted.mp (hall _ (cellNumber_lt hx1 hx2))).resolve_right hx3)

/-- P keeps its canonical form when a pending cell leaves it. -/
theorem CellSet.wf_remove {p : CellSet} {r c : Nat} (hp : p.wf) (h : p.mem r c = true) : (p.remove r c).wf := by
  cases p with
  | empty => trivial
  | grid n written =>
    obtain ⟨hr, hc, -⟩ := CellSet.mem_grid.mp h
    unfold CellSet.remove
    simp only
    split
    · exact ⟨pairwise_insertSorted hp.1,
        fun x hx => (mem_insertSorted.mp hx).elim (fun he => he ▸ cellNumber_lt hr hc) (hp.2.1 x), by assumption⟩
    · trivial

/-- P loses one cell. -/
theorem CellSet.size_remove {p : CellSet} {r c : Nat} (hp : p.wf) (h : p.mem r c = true) :
    (p.remove r c).size + 1 = p.size := by
  cases p with
  | empty => simp [CellSet.mem] at h
  | grid n written =>
    obtain ⟨-, -, hm⟩ := CellSet.mem_grid.mp h
    have hl := length_insertSorted hm
    have hlt := hp.2.2
    unfold CellSet.remove
    simp only
    split
    · simp only [CellSet.size, hl] at *
      omega
    · simp only [CellSet.size, hl] at *
      omega

/-- The grade of P does not change while it has cells. -/
theorem CellSet.remove_grid {n : Nat} {written : List Nat} {r c m : Nat} {w : List Nat}
    (h : (CellSet.grid n written).remove r c = .grid m w) : m = n := by
  unfold CellSet.remove at h
  simp only at h
  split at h
  · exact ((CellSet.grid.injEq ..).mp h).1.symm
  · cases h

/-- The whole grid is in canonical form, and all its cells are pending. -/
theorem fullGrid_wf (n : Nat) : (fullGrid n).wf := ⟨by simp, by simp, by simp⟩

theorem mem_fullGrid {n r c : Nat} : (fullGrid n).mem r c = true ↔ r < 2 ^ n ∧ c < 2 ^ n := by
  rw [fullGrid, CellSet.mem_grid]
  simp

/-- Different cells of a table lie in different words. -/
theorem cellAddr_disjoint {b n r c r' c' : Nat} (hc : c < 2 ^ n) (hc' : c' < 2 ^ n)
    (h : ¬(r = r' ∧ c = c')) : cellAddr b n r c + 4 ≤ cellAddr b n r' c' ∨ cellAddr b n r' c' + 4 ≤ cellAddr b n r c := by
  have hne : r * 2 ^ n + c ≠ r' * 2 ^ n + c' := fun he => h (cellNumber_inj hc hc' he)
  unfold cellAddr
  omega

/-- Every byte of a cell is a byte of the table (R80). -/
theorem cellAddr_inTable {s : State} {r c j : Nat} (hr : r < 2 ^ s.grade) (hc : c < 2 ^ s.grade) (hj : j < 4) :
    inTable s (cellAddr s.tableBase s.grade r c + j) = true := by
  have h := cellNumber_lt hr hc
  rw [inTable, Bool.and_eq_true, decide_eq_true_iff, decide_eq_true_iff, cellAddr]
  omega

/-- An admitted cell write ends below 2^32 (R83). -/
theorem admitted_lt {cfg : Config} {a : Nat} (h : admitted cfg a = true) : a + 4 ≤ 2 ^ addrW := by
  simp only [admitted, Bool.and_eq_true, decide_eq_true_eq] at h
  omega

/-- A cell that waits to be written because a racing read has shown its new word is pending and shown (R88). -/
theorem shownPending_some {s : State} {cell : Nat × Nat} (h : shownPending s = some cell) :
    s.pending.mem cell.1 cell.2 = true ∧ ∃ i ∈ s.shown, cell = (i / 2 ^ s.grade, i % 2 ^ s.grade) := by
  refine ⟨by simpa using List.find?_some h, ?_⟩
  obtain ⟨i, hi, he⟩ := List.mem_map.mp (List.mem_of_find?_eq_some h)
  exact ⟨i, hi, he.symm⟩

/-- No cell waits so exactly when no shown cell is pending. -/
theorem shownPending_none {s : State} :
    shownPending s = none ↔ ∀ i ∈ s.shown, s.pending.mem (i / 2 ^ s.grade) (i % 2 ^ s.grade) = false := by
  simp [shownPending]

/-- The next cell is pending (R214). -/
theorem nextCell_mem {s : State} {r c : Nat} (hw : s.pending.wf) (h : nextCell s = some (r, c)) :
    s.pending.mem r c = true := by
  unfold nextCell at h
  split at h
  · cases h
  · rename_i n written hp
    have hm : s.pending.mem (chooseCell n written s.pick).1 (chooseCell n written s.pick).2 = true :=
      hp ▸ chooseCell_mem s.pick (hp ▸ hw)
    simp only at h
    split at h
    · rw [Option.some.inj h] at hm
      exact hm
    · cases hs : shownPending s with
      | none =>
        rw [hs, Option.getD_none] at h
        rw [Option.some.inj h] at hm
        exact hm
      | some cell =>
        rw [hs, Option.getD_some] at h
        rw [Option.some.inj h] at hs
        exact (shownPending_some hs).1

/-- The next cell is the picked one where that one is pending, and admitted or no shown cell is pending (R214, R88). -/
theorem nextCell_pick {s : State} (hm : s.pending.mem s.pick.1 s.pick.2 = true)
    (h : admitted s.cfg (cellAddr s.tableBase s.grade s.pick.1 s.pick.2) = true ∨ shownPending s = none) :
    nextCell s = some s.pick := by
  unfold nextCell
  split
  · rename_i hp
    simp [hp, CellSet.mem] at hm
  · rename_i n written hp
    rw [hp] at hm
    simp only [chooseCell_pick hm]
    split
    · rfl
    · rename_i ha
      rw [h.resolve_left ha, Option.getD_none]

/-- A refused cell is the next one only when every cell that a racing read has shown as new has been written (R88). -/
theorem nextCell_refused {s : State} {r c : Nat} (hs : s.Coherent) (hp : s.phase = .run .table) (hpf : s.pf = false)
    (h : nextCell s = some (r, c)) (ha : admitted s.cfg (cellAddr s.tableBase s.grade r c) = false) :
    ∀ i ∈ s.shown, s.pending.mem (i / 2 ^ s.grade) (i % 2 ^ s.grade) = false := by
  rw [← shownPending_none]
  unfold nextCell at h
  split at h
  · cases h
  · simp only at h
    split at h
    · rename_i hadm
      rw [Option.some.inj h] at hadm
      simp [ha] at hadm
    · cases hsp : shownPending s with
      | none => rfl
      | some cell =>
        rw [hsp, Option.getD_some] at h
        obtain ⟨-, i, hi, he⟩ := shownPending_some hsp
        have hadm := (hs.shown_admitted hp hpf i hi).2
        rw [Option.some.inj h] at he
        obtain ⟨rfl, rfl⟩ := Prod.mk.inj he
        rw [cellAddr, Nat.mul_comm (i / _), Nat.div_add_mod, hadm] at ha
        cases ha

/-- The two outcomes of TABLE's work step: the write of a pending cell, or BERR (R214, R216). -/
theorem tableWork_cases {s t : State} (hw : s.pending.wf) (h : tableWork s = some t) :
    ∃ r c, nextCell s = some (r, c) ∧ s.pending.mem r c = true ∧
      ((admitted s.cfg (cellAddr s.tableBase s.grade r c) = true ∧
          t = { s with
            mem := s.mem.writeLE (cellAddr s.tableBase s.grade r c) 4 (cellValue s.tip s.grade r c)
            pending := s.pending.remove r c }) ∨
        (admitted s.cfg (cellAddr s.tableBase s.grade r c) = false ∧ t = raise .berr s)) := by
  obtain ⟨r, c, hcell, rfl⟩ := tableWork_some h
  refine ⟨r, c, hcell, nextCell_mem hw hcell, ?_⟩
  unfold cellStep
  by_cases ha : admitted s.cfg (cellAddr s.tableBase s.grade r c) = true
  · exact .inl ⟨ha, if_pos ha⟩
  · exact .inr ⟨by simpa using ha, if_neg ha⟩

theorem tableWork_none {s : State} : tableWork s = none ↔ s.pending = .empty := by
  rw [← nextCell_none]
  unfold tableWork
  split <;> simp_all

/-- What a racing read that shows a new word rests on: the draw, the race, a checked command and an admitted cell (R88). -/
theorem shownWord_some {s : State} {a : Nat} {v : Word} (h : shownWord s a = some v) :
    s.draw = .new ∧ s.phase = .run .table ∧ s.pf = false ∧ cellNumberAt s a < 4 ^ s.grade ∧
      admitted s.cfg (s.tableBase + 4 * cellNumberAt s a) = true ∧
      v = cellValue s.tip s.grade (cellNumberAt s a / 2 ^ s.grade) (cellNumberAt s a % 2 ^ s.grade) := by
  unfold shownWord at h
  split at h
  · cases h
  · rename_i hd
    split at h
    · rename_i hr
      simp only [races, Bool.and_eq_true, beq_iff_eq] at hr
      obtain ⟨hp, hin⟩ := hr
      simp only [inTable, Bool.and_eq_true, decide_eq_true_eq] at hin
      simp only [newWordAt] at h
      split at h
      · rename_i hc
        simp only [Bool.and_eq_true, Bool.not_eq_true'] at hc
        exact ⟨hd, hp, hc.1, by unfold cellNumberAt; omega, hc.2, (Option.some.inj h).symm⟩
      · cases h
    · cases h

/-- The two outcomes of marking a cell as shown (R88). -/
theorem markShown_cases (a : Nat) (s : State) :
    ((∃ v, shownWord s a = some v) ∧ markShown a s = { s with shown := insertSorted (cellNumberAt s a) s.shown }) ∨
      (shownWord s a = none ∧ markShown a s = s) := by
  unfold markShown
  cases h : shownWord s a with
  | none => exact .inr ⟨rfl, rfl⟩
  | some v => exact .inl ⟨⟨v, rfl⟩, rfl⟩

/-- The bytes of the latched table (R89). -/
theorem inTable_iff {s : State} {a : Nat} :
    inTable s a = true ↔ s.ltb.toNat ≤ a ∧ a < s.ltb.toNat + 4 * 4 ^ s.ln.toNat := by
  simp only [inTable, Bool.and_eq_true, decide_eq_true_eq]
  rfl

/-- Admission, check by check (R83). -/
theorem admitted_iff {cfg : Config} {a : Nat} :
    admitted cfg a = true ↔ a + 3 < 2 ^ addrW ∧ tableMemAdmits cfg a = true ∧
      (a + 3 < windowBase cfg ∨ windowBase cfg + 0x3F < a) := by
  simp [admitted, and_assoc]

/-- A bus address outside the window (R70). -/
theorem windowOffset_outside {cfg : Config} {a : Nat}
    (h : ¬ (windowBase cfg ≤ a ∧ a ≤ windowBase cfg + 0x3F)) : windowOffset cfg a = none := if_neg h

/-- The three memory accesses the spec gives (R81). -/
theorem alignedMemAccess_iff {a width : Nat} :
    alignedMemAccess a width = true ↔ (width = 1 ∨ width = 2 ∨ width = 4) ∧ a % width = 0 := by
  simp [alignedMemAccess, or_assoc]

/-- A whole aligned word at an offset of the window reaches its register (R72, R73). -/
theorem windowAccess_whole {off : Nat} {act : Option Reg → Host.Outcome State Fault Refusal} (h : off % 4 = 0)
    (hw : off ≤ 0x3C) : windowAccess off 4 act = act (regAt off) := by
  simp [windowAccess, wholeAlignedWord, inWindow, h, hw]

/-- Any other window access is refused (R73). -/
theorem windowAccess_partial {off width : Nat} {act : Option Reg → Host.Outcome State Fault Refusal}
    (h : width ≠ 4 ∨ off % 4 ≠ 0) : windowAccess off width act = .refused .partialAccess := by
  have : wholeAlignedWord off width = false := by
    simp only [wholeAlignedWord, Bool.and_eq_false_iff, beq_eq_false_iff_ne]; exact h
  simp [windowAccess, this]

end Sys2Proof.Machine
end

