-- ==== Sys2Proof/Laws/Step.lean ====
section
/-! SUPPORT. Everything one step can do, said once. -/

namespace Sys2Proof.Machine

/-- The state `u` is `s` but for the fields that belong to the two agents' inputs and the host's own log. -/
def SameBlock (s u : State) : Prop :=
  u = { s with host := u.host, sched := u.sched, pick := u.pick, draw := u.draw, reads := u.reads }

theorem SameBlock.refl (s : State) : SameBlock s s := rfl

theorem SameBlock.trans {s u v : State} (h : SameBlock s u) (h' : SameBlock u v) : SameBlock s v := by
  unfold SameBlock at *
  rw [h', h]

theorem SameBlock.phase {s u : State} (h : SameBlock s u) : u.phase = s.phase := by rw [h]

theorem SameBlock.busy {s u : State} (h : SameBlock s u) : u.busy = s.busy := by rw [State.busy, h.phase]; rfl

/-- The kinds of move a step makes from `s`, apart from the agents' own fields, to reach `t`. `acts` says that the host had an
access to take. -/
inductive Move (s t : State) : Prop where
  /-- a reset event (R290) -/
  | reset (u : State) (hu : SameBlock s u) (turn : ∃ rest, s.sched = .reset :: rest) (ht : t = platformReset u)
  /-- a block step of the running command (R243, R244) -/
  | block (u : State) (hu : SameBlock s u) (i : Instr) (running : s.phase = .run i)
      (ht : t = blockStep (workOf i) (finishOf i) u)
  /-- acceptance (R241) -/
  | accept (u : State) (hu : SameBlock s u) (acts : s.host ≠ []) (i : Instr) (idle : s.phase = .idle) (ht : t = Machine.accept i (initOf i) u)
  /-- an illegal command word (R248) -/
  | illegal (u : State) (hu : SameBlock s u) (acts : s.host ≠ []) (idle : s.phase = .idle) (ht : t = raise .ill u)
  /-- a write dropped while busy (R76) -/
  | dropped (u : State) (hu : SameBlock s u) (acts : s.host ≠ []) (busy : s.phase ≠ .idle) (ht : t = raise .bsyerr u)
  /-- a write of STATUS (R75) -/
  | clear (u : State) (hu : SameBlock s u) (v : Word) (writes : s.HostWrites .status v)
      (ht : t = { u with status := u.status.clearBits v })
  /-- a write of F while idle (R75) -/
  | writeF (u : State) (hu : SameBlock s u) (acts : s.host ≠ []) (idle : s.phase = .idle) (v : Word) (ht : t = { u with f := v })
  /-- a write of G while idle (R75) -/
  | writeG (u : State) (hu : SameBlock s u) (acts : s.host ≠ []) (idle : s.phase = .idle) (v : Word) (ht : t = { u with g := v })
  /-- a write of IP while idle (R75) -/
  | writeIp (u : State) (hu : SameBlock s u) (acts : s.host ≠ []) (idle : s.phase = .idle) (v : Word) (ht : t = { u with ip := v })
  /-- a write of N while idle (R75) -/
  | writeN (u : State) (hu : SameBlock s u) (acts : s.host ≠ []) (idle : s.phase = .idle) (v : Word) (ht : t = { u with n := v })
  /-- a write of TBASE while idle (R75) -/
  | writeTbase (u : State) (hu : SameBlock s u) (acts : s.host ≠ []) (idle : s.phase = .idle) (v : Word)
      (ht : t = { u with tbase := tbaseStored v })
  /-- a host write of memory, outside the table of a running TABLE (R89) -/
  | memWrite (u : State) (hu : SameBlock s u) (acts : s.host ≠ []) (a : Word) (width : Nat) (v : Word)
      (aligned : alignedMemAccess a.toNat width = true)
      (outside : s.phase = .run .table → ∀ i, i < width → inTable s (a.toNat + i) = false)
      (ht : t = { u with mem := u.mem.writeLE a.toNat width v })
  /-- a racing read of a cell of a running TABLE that shows its new word (R88) -/
  | shows (u : State) (hu : SameBlock s u) (acts : s.host ≠ []) (i : Nat) (running : s.phase = .run .table)
      (checked : s.pf = false) (cell : i < 4 ^ s.grade) (adm : admitted s.cfg (s.tableBase + 4 * i) = true)
      (ht : t = { u with shown := insertSorted i u.shown })
  /-- a read, a poll, an ignored write, or a turn with nothing to do -/
  | quiet (hu : SameBlock s t)

theorem SameBlock.inTable {s u : State} (h : SameBlock s u) (a : Nat) : inTable u a = inTable s a := by
  rw [h]; rfl

theorem hostWrite_move {s u t : State} (hu : SameBlock s u) (acts : s.host ≠ []) {r : Option Reg} {v : Word}
    (writes : r = some .status → s.HostWrites .status v) (h : hostWrite r v u = .next t) :
    Move s t := by
  have drop : ∀ {act : State → Host.Outcome State Fault Refusal}, unlessBusy act u = .next t →
      (s.phase ≠ .idle ∧ t = raise .bsyerr u) ∨ (s.phase = .idle ∧ act u = .next t) := by
    intro act h
    unfold unlessBusy at h
    split at h
    · rename_i hb
      rw [hu.busy, busy_eq_true] at hb
      exact .inl ⟨hb, (Host.Outcome.next.inj h).symm⟩
    · rename_i hb
      rw [hu.busy, Bool.not_eq_true, busy_eq_false] at hb
      exact .inr ⟨hb, h⟩
  cases r with
  | none =>
    cases h
    exact .quiet hu
  | some r =>
    cases r with
    | cmd =>
      rcases drop h with ⟨hb, ht⟩ | ⟨hi, h⟩
      · exact .dropped u hu acts hb ht
      · unfold acceptWord at h
        split at h
        · exact .illegal u hu acts hi (Host.Outcome.next.inj h).symm
        · rename_i i _
          rw [exec_idle i (hu.phase.trans hi)] at h
          exact .accept u hu acts i hi (Host.Outcome.next.inj h).symm
    | status => exact .clear u hu v (writes rfl) (Host.Outcome.next.inj h).symm
    | f =>
      rcases drop (act := fun s => .next { s with f := v }) h with ⟨hb, ht⟩ | ⟨hi, h⟩
      · exact .dropped u hu acts hb ht
      · exact .writeF u hu acts hi v (Host.Outcome.next.inj h).symm
    | g =>
      rcases drop (act := fun s => .next { s with g := v }) h with ⟨hb, ht⟩ | ⟨hi, h⟩
      · exact .dropped u hu acts hb ht
      · exact .writeG u hu acts hi v (Host.Outcome.next.inj h).symm
    | ip =>
      rcases drop (act := fun s => .next { s with ip := v }) h with ⟨hb, ht⟩ | ⟨hi, h⟩
      · exact .dropped u hu acts hb ht
      · exact .writeIp u hu acts hi v (Host.Outcome.next.inj h).symm
    | n =>
      rcases drop (act := fun s => .next { s with n := v }) h with ⟨hb, ht⟩ | ⟨hi, h⟩
      · exact .dropped u hu acts hb ht
      · exact .writeN u hu acts hi v (Host.Outcome.next.inj h).symm
    | result =>
      cases h
      exact .quiet hu
    | tbase =>
      rcases drop (act := fun s => .next { s with tbase := tbaseStored v }) h with ⟨hb, ht⟩ | ⟨hi, h⟩
      · exact .dropped u hu acts hb ht
      · exact .writeTbase u hu acts hi v (Host.Outcome.next.inj h).symm
    | caps =>
      cases h
      exact .quiet hu

/-- A window access that is answered passed its two checks. -/
theorem windowAccess_next {off width : Nat} {act : Option Reg → Host.Outcome State Fault Refusal} {t : State}
    (h : windowAccess off width act = .next t) : act (regAt off) = .next t ∧ width = 4 := by
  unfold windowAccess at h
  split at h
  · cases h
  · rename_i hw
    simp only [wholeAlignedWord, Bool.not_eq_true', Bool.not_eq_false, Bool.and_eq_true, beq_iff_eq] at hw
    split at h
    · cases h
    · exact ⟨h, hw.1⟩

/-- STATUS is the register at offset 0x04 alone (R71). -/
theorem regAt_status {off : Nat} (h : regAt off = some .status) : off = 0x04 := by
  unfold regAt at h
  split at h <;> first | rfl | cases h

/-- The bus address of a window offset (R71). -/
theorem windowOffset_some {cfg : Config} {a off : Nat} (h : windowOffset cfg a = some off) : a = windowBase cfg + off := by
  unfold windowOffset at h
  split at h
  · have := Option.some.inj h
    omega
  · cases h

theorem sameBlock_logRead {s u : State} (hu : SameBlock s u) (v : Word) : SameBlock s (logRead v u) :=
  hu.trans (u := u) rfl

theorem hostAccess_move {s u t : State} (hu : SameBlock s u) (moves : s.HostMoves) {op : HostOp} {ops : List HostOp}
    (hop : s.host = op :: ops) (h : hostAccess op u = .next t) : Move s t := by
  have acts : s.host ≠ [] := by simp [hop]
  cases op with
  | write off width v =>
    obtain ⟨h', rfl⟩ := windowAccess_next (act := fun r => hostWrite r v u) h
    exact hostWrite_move hu acts (fun hr => ⟨moves, ops, .inl (by rw [hop, regAt_status hr]; rfl)⟩) h'
  | read off width =>
    cases (windowAccess_next (act := fun r => .next (logRead (hostRead r u) u)) h).1
    exact .quiet (sameBlock_logRead hu _)
  | poll =>
    cases h
    refine .quiet ?_
    split
    · exact sameBlock_logRead hu _
    · exact (sameBlock_logRead hu _).trans rfl
  | readMem a width =>
    change hostReadMem a.toNat width u = .next t at h
    unfold hostReadMem at h
    split at h
    · cases (windowAccess_next h).1
      exact .quiet (sameBlock_logRead hu _)
    · split at h
      · cases h
      · split at h
        · cases h
          rcases markShown_cases a.toNat u with ⟨⟨w, hw⟩, he⟩ | ⟨-, he⟩
          · rw [he]
            obtain ⟨-, hp, hpf, hc, ha, -⟩ := shownWord_some hw
            have hg : u.grade = s.grade ∧ u.tableBase = s.tableBase ∧ u.cfg = s.cfg ∧ u.pf = s.pf := by
              rw [hu]
              exact ⟨rfl, rfl, rfl, rfl⟩
            rw [hg.1] at hc
            rw [hg.2.1, hg.2.2.1] at ha
            exact .shows (logRead _ u) (sameBlock_logRead hu _) acts _ (hu.phase.symm.trans hp)
              (hg.2.2.2.symm.trans hpf) hc ha rfl
          · rw [he]
            exact .quiet (sameBlock_logRead hu _)
        · cases h
  | writeMem a width v =>
    change hostWriteMem a.toNat width v u = .next t at h
    unfold hostWriteMem at h
    split at h
    · rename_i off hoff
      obtain ⟨h', rfl⟩ := windowAccess_next (act := fun r => hostWrite r v u) h
      refine hostWrite_move hu acts (fun hr => ⟨moves, ops, .inr ⟨a, hop, ?_⟩⟩) h'
      rw [windowOffset_some hoff, regAt_status hr, hu]
      rfl
    · split at h
      · cases h
      · rename_i hal
        split at h
        · cases h
        · rename_i hout
          refine .memWrite u hu acts a width v (by simpa using hal) (fun hp i hi => ?_) (Host.Outcome.next.inj h).symm
          rw [← hu.inTable]
          by_contra hin
          refine hout ⟨hu.phase.trans hp, List.any_eq_true.mpr ⟨i, List.mem_range.mpr hi, ?_⟩⟩
          simpa using hin

theorem takeTurn_move {s u t : State} (hu : SameBlock s u) (hh : u.host = s.host) {turn : Turn}
    (hr : turn = .reset → ∃ rest, s.sched = .reset :: rest) (hm : ∀ d, turn = .host d → s.HostMoves) (h : takeTurn turn u = .next t) : Move s t := by
  cases turn with
  | host d =>
    have hd : SameBlock s { u with draw := d } := hu.trans rfl
    change hostTurn { u with draw := d } = .next t at h
    unfold hostTurn at h
    split at h
    · cases h
      exact .quiet hd
    · rename_i op rest hop
      exact hostAccess_move (u := { u with draw := d, host := rest }) (hu.trans rfl) (hm d rfl) (hh.symm.trans hop) h
  | block p =>
    have hd : SameBlock s { u with pick := p } := hu.trans rfl
    change blockTurn { u with pick := p } = .next t at h
    unfold blockTurn at h
    split at h
    · cases h
      exact .quiet hd
    · rename_i i hp
      rw [exec_running hp] at h
      exact .block _ hd i (hd.phase.symm.trans hp) (Host.Outcome.next.inj h).symm
  | reset => exact .reset u hu (hr rfl) (Host.Outcome.next.inj h).symm

/-- Everything one step can do. -/
theorem step_move {s t : State} (h : step s = .next t) : Move s t := by
  unfold step nextTurn at h
  split at h
  · rename_i hs
    refine takeTurn_move (SameBlock.refl s) rfl (fun hr => ?_) (fun d hd => ?_) h
    · unfold defaultTurn at hr
      split at hr <;> cases hr
    · unfold defaultTurn at hd
      split at hd
      · cases hd
      · rename_i hb
        exact .inr ⟨hs, busy_eq_false.mp (by simpa using hb)⟩
  · rename_i turn rest hs
    exact takeTurn_move (u := { s with sched := rest }) rfl rfl (fun hr => ⟨rest, hr ▸ hs⟩)
      (fun d hd => .inl ⟨d, rest, hd ▸ hs⟩) h

end Sys2Proof.Machine
end

