-- ==== Sys2Proof/Tests/Slice0.lean ====
section
/-! SUPPORT. Tests with expected values from 95_test_vectors.md and the opcode map, and one witness for the hypotheses of each
statement that has some. -/

namespace Sys2Proof.Tests

open Sys2Proof Sys2Proof.Machine Sys2Proof.Claims

/-- The platform of the spec's programs: BASE = 0x40000000, memory admitted from 0 to 0x3FFFFFFF, CHECK_PRECOND = 0. -/
def cfg0 : Config := ⟨0x1000000#26, [(0x00000000, 0x3FFFFFFF)], 0, false⟩

/-- The same platform with CHECK_PRECOND = 1. -/
def cfg1 : Config := { cfg0 with checkPrecond := true }

def idle0 : State := State.launch cfg0

/-- The command runs, on the given latches, with pf = 0. -/
def running (i : Instr) (lf lg lip ln ltb : Word) : State :=
  { idle0 with
    phase := .run i, lop := opcode i, f := lf, g := lg, ip := lip, n := ln, tbase := ltb
    lf := lf, lg := lg, lip := lip, ln := ln, ltb := ltb }

/-- The host's next access is `op`, and it moves next. -/
def hostDoes (op : HostOp) (s : State) : State := { s with host := [op], sched := [.host .old] }

/-- The state an outcome goes on to. -/
def after (o : Host.Outcome State Fault Refusal) : State :=
  match o with
  | .next t => t
  | .fault _ => idle0
  | .refused _ => idle0

/-! WellFormed: one ill-formed access for each check. -/

theorem test_wf_refuses_misaligned_offset : (HostOp.write 0x0A 4 0).wf = false := by decide

theorem test_wf_refuses_half_word_access : (HostOp.read 0x08 2).wf = false := by decide

theorem test_wf_refuses_offset_above_window : (HostOp.read 0x40 4).wf = false := by decide

theorem test_wf_refuses_unaligned_memory_word : (HostOp.readMem 0x1002 4).wf = false := by decide

theorem test_wf_refuses_three_byte_memory_access : (HostOp.writeMem 0x1000 3 0).wf = false := by decide

theorem test_wf_accepts_last_offset : (HostOp.read 0x3C 4).wf = true := by decide

/-! Decode: words written out from the opcode map (R115) and the illegal words (R116). -/

theorem test_decode_nop : decode 0b00000000000000000000000000000000#32 = .command .nop := by decide

theorem test_decode_add : decode 0b00000000000000000000000000000001#32 = .command .add := by decide

theorem test_decode_sub : decode 0b00000000000000000000000000000010#32 = .command .sub := by decide

theorem test_decode_mul : decode 0b00000000000000000000000000000011#32 = .command .mul := by decide

theorem test_decode_irred : decode 0b00000000000000000000000000000100#32 = .command .irred := by decide

theorem test_decode_table : decode 0b00000000000000000000000000000101#32 = .command .table := by decide

theorem test_decode_reserved_opcode : decode 0x00000006#32 = .illegal .reservedOpcode := by decide

theorem test_decode_reserved_bits : decode 0x00000010#32 = .illegal .reservedBits := by decide

theorem test_decodeTableWord : decodeTableWord 32 3 = some .mul ∧ decodeTableWord 32 0x10 = none := by decide

/-- A word placed for the next step after reset runs as the command it decodes to. -/
theorem test_withFetchWord_runs_table :
    (after (step (State.reset.withFetchWord 32 5))).phase = .run .table := by decide

/-! The commands: vectors of 95_test_vectors.md. -/

/-- K6: NOP leaves ILL set and sets DONE. -/
theorem test_nop_completes :
    statusWord false (after (exec .nop { running .nop 0 0 0 0 0 with
      status := ⟨false, true, false, false, false⟩ })).status = 0x06#32 := by decide

/-- A4. -/
theorem test_add_keeps_all_bits :
    (after (exec .add (running .add 0x12345678 0x9ABCDEF0 0 4 0))).result = 0x88888888#32 := by decide

/-- A6. -/
theorem test_sub_has_no_borrow :
    (after (exec .sub (running .sub 0xFFFFFFFF 0x0F0F0F0F 0 0 0))).result = 0xF0F0F0F0#32 := by decide

/-- S1: the iteration k = 1 of the traced product, from acc = 0, fw = 0x9, gw = 0x3. -/
theorem test_mul_iteration :
    let t := after (exec .mul { running .mul 0xD 0x6 0x13 4 0 with fw := 0x9, gw := 0x3, k := 1 })
    t.acc = 0x9#32 ∧ t.fw = 0x1#32 ∧ t.gw = 0x1#32 ∧ t.k = 2 := by decide

/-- M55: MUL passes its check although f has a bit above the grade. -/
theorem test_mul_accepts_stray_bit_of_f :
    (after (exec .mul { State.launch cfg1 with f := 0x1F, g := 1, ip := 0x13, n := 4 })).pf = false := by decide

/-- M1, M14, M31; M40, M43, M44 at grades above N_MAX. -/
theorem test_multiply :
    multiply 0xD 0x6 0x13 4 = 0x8#32 ∧ multiply 0x57 0x83 0x11B 8 = 0xC1#32 ∧ multiply 0x1F 0x2 0x13 4 = 0xD#32 ∧
      multiply 0x40000000 0x40000000 0x80000009 31 = 0x20000012#32 ∧
      multiply 0x87654321 0x12345678 0x0 0xFFFFFFFF = 0x2B421178#32 ∧
      multiply 0xDEADBEEF 0xCAFEBABE 0x8D 32 = 0x96C85C18#32 := by
  decide +kernel

/-- I6. -/
theorem test_irred_grade_five : (after (exec .irred (running .irred 0 0 0 5 0))).result = 0x23#32 := by decide

/-- I1, I11, I12. -/
theorem test_rom_edges : ipRom 0 = 0x3#32 ∧ ipRom 31 = 0x80000003#32 ∧ ipRom 32 = 0x3#32 := by decide

/-- A TABLE of grade 2 at 0x1000 (T2), all cells pending. -/
def table2 : State := { running .table 0 0 0 2 0x1000 with tip := 0x7, pending := .grid 2 [] }

/-- T2, S5: cell (2, 3) is written at 0x102C as 01 00 00 00. -/
theorem test_table_cell :
    (after (exec .table { table2 with pick := (2, 3) })).mem = [(0x102C, 1), (0x102D, 0), (0x102E, 0), (0x102F, 0)] := by
  decide

/-- Cells above 0x101C are refused. -/
def refusing : State := { table2 with cfg := { cfg0 with admits := [(0, 0x101C)] }, pick := (2, 0) }

/-- T11: a refused cell ends the command with BERR and DONE. R88: where cell (1, 1) has been read as new, it is written first, at
0x1014. -/
theorem test_table_refused_cell :
    let t := after (exec .table refusing)
    let u := after (exec .table { refusing with shown := [5] })
    statusWord t.busy t.status = 0x22#32 ∧ t.mem = [] ∧ u.phase = .run .table ∧
      u.mem = [(0x1014, 1), (0x1015, 0), (0x1016, 0), (0x1017, 0)] := by decide

/-! The host's accesses: vectors of 95_test_vectors.md. -/

/-- K7: write-1-to-clear. -/
theorem test_status_write_clears_one_bit :
    (after (step (hostDoes (.write 0x04 4 0x8) { idle0 with status := ⟨true, true, true, true, true⟩ }))).status
      = ⟨true, true, false, true, true⟩ := by decide

/-- K10. -/
theorem test_tbase_low_bits : (after (step (hostDoes (.write 0x1C 4 0x12345677) idle0))).tbase = 0x12345674#32 := by
  decide

/-- K17: an illegal word written while busy sets BSYERR, not ILL. -/
theorem test_illegal_word_while_busy :
    (after (step (hostDoes (.write 0x00 4 0x6) (running .mul 0 0 0 4 0)))).status
      = ⟨false, false, true, false, false⟩ := by decide

/-- The expansion of `MUL% 0x7, 0xD, 0x23, 5` (P5), as (offset, value) pairs. -/
theorem test_mulCall_expands :
    assemble [.mulCall 0x7 0xD 0x23 5] =
      [.write 0x08 4 0x7, .write 0x0C 4 0xD, .write 0x10 4 0x23, .write 0x14 4 5, .write 0x00 4 3, .poll,
        .read 0x18 4] := by decide

/-! Witnesses. -/

theorem idle0_coherent : idle0.Coherent :=
  ⟨by decide, rfl, fun _ => rfl, fun _ => ⟨rfl, rfl⟩, fun h => (by cases h), fun _ h => (by cases h), Nat.zero_le _,
    trivial, fun _ _ h => (by cases h), List.Pairwise.nil, fun _ _ _ h => (by cases h)⟩

theorem idle0_progress : idle0.MulProgress ∧ idle0.TableProgress :=
  ⟨fun h => (by cases h), fun h => (by cases h)⟩

theorem nil_wf : Memory.wf [] := ⟨List.Pairwise.nil, fun _ h => (by cases h)⟩

/-- A running command that has no pending cells is coherent when its latched base is aligned. -/
theorem running_coherent (i : Instr) (lf lg lip ln ltb : Word) (h : ltb.toNat % 4 = 0) :
    (running i lf lg lip ln ltb).Coherent :=
  ⟨nil_wf, h, fun h => (by cases h), fun _ => ⟨rfl, rfl⟩, fun _ => rfl,
    fun op hp => ⟨congrArg opcode (Phase.run.inj hp), rfl, rfl, rfl, rfl, rfl⟩, Nat.zero_le _, trivial,
    fun _ _ h => (by cases h), List.Pairwise.nil, fun _ _ _ h => (by cases h)⟩

/-- A TABLE of grade n at the base, just accepted. -/
def tableAt (n base : Word) : State :=
  { running .table 0 0 0 n base with tip := ipRom n.toNat, pending := fullGrid n.toNat }

theorem tableAt_coherent (n base : Word) (h : base.toNat % 4 = 0) : (tableAt n base).Coherent :=
  ⟨nil_wf, h, fun h => (by cases h), fun _ => ⟨rfl, rfl⟩, fun _ => rfl,
    fun op hp => ⟨congrArg opcode (Phase.run.inj hp), rfl, rfl, rfl, rfl, rfl⟩, Nat.zero_le _, fullGrid_wf _,
    fun m w hq => ⟨rfl, rfl, ((CellSet.grid.injEq ..).mp hq).1.symm⟩,
    List.Pairwise.nil, fun _ _ _ h => (by cases h)⟩

/-- So is its progress, with any memory, as long as that is the memory of acceptance. -/
theorem tableAt_progress (n base : Word) (m : Memory) :
    ({ tableAt n base with mem := m, memAtAccept := m }).TableProgress := by
  refine fun _ _ => ⟨rfl, fun r c hr hc => ?_⟩
  have hm : (fullGrid n.toNat).mem r c = true := mem_fullGrid.mpr ⟨hr, hc⟩
  rw [if_pos]
  · exact fun _ _ => rfl
  · exact hm

/-- A memory that holds the word 5 at 0x2004. -/
def mem5 : Memory := [(0x2004, 5), (0x2005, 0), (0x2006, 0), (0x2007, 0)]

theorem witness_StepRunsTheWrittenCommand :
    let s := { hostDoes (.write 0x00 4 5) idle0 with sched := [.host .new] }
    s.phase = .idle ∧ s.host = .write 0x00 4 5#32 :: [] ∧ decode 5#32 = .command .table ∧ s.sched = .host .new :: [] ∧
      ({ s with sched := [] } : State).sched = [] := by decide

theorem witness_StepRunsTheRunningCommand :
    (running .table 0 0 0 0 0).phase = .run .table ∧
      ({ running .mul 0 0 0 0 0 with sched := [.block (1, 1)] } : State).sched = .block (1, 1) :: [] ∧
      (running .mul 0 0 0 0 0).sched = [] := by decide

theorem witness_IdleBlockTakesNoStep :
    idle0.phase = .idle ∧ ({ idle0 with sched := [.block (0, 0)] } : State).sched = .block (0, 0) :: [] ∧
      idle0.sched = [] ∧ idle0.Final := ⟨rfl, rfl, rfl, rfl, rfl⟩

theorem witness_ResetAbandonsTheCommand :
    let s := { running .mul 0xD 6 0x13 4 0 with k := 2, sched := [.reset] }
    s.sched = .reset :: [] ∧ s.phase = .run .mul := by decide

theorem witness_NopRunsTheLifecycle :
    idle0.phase = .idle ∧ (running .nop 0 0 0 0 0).phase = .run .nop ∧ (running .nop 0 0 0 0 0).pf = false := by decide

theorem witness_AddWritesXor :
    idle0.phase = .idle ∧ (running .add 5 3 0 0 0).phase = .run .add ∧ (running .add 5 3 0 0 0).pf = false := by decide

theorem witness_SubWritesXor :
    idle0.phase = .idle ∧ (running .sub 5 3 0 0 0).phase = .run .sub ∧ (running .sub 5 3 0 0 0).pf = false := by decide

theorem witness_IrredWritesTheRomModulus :
    let s := { State.launch cfg1 with n := 30 }
    s.phase = .idle ∧ (s.cfg.checkPrecond = false ∨ (1 ≤ s.n.toNat ∧ s.n.toNat ≤ 30)) ∧
      (running .irred 0 0 0 31 0).phase = .run .irred ∧ (running .irred 0 0 0 31 0).pf = false := by decide

/-- Acceptance at the highest legal grade, an iteration at k = 31 of 32, and completion at k = 32. -/
theorem witness_MulAcceptsIteratesAndCompletes :
    let s := { State.launch cfg1 with ip := 0x40000003, n := 30 }
    let u := { running .mul 1 1 1 0xFFFFFFFF 0 with k := 31 }
    let v := { running .mul 1 1 1 0xFFFFFFFF 0 with k := 32 }
    s.phase = .idle ∧
      (s.cfg.checkPrecond = false ∨ (1 ≤ s.n.toNat ∧ s.n.toNat ≤ 30 ∧ s.ip.getLsbD s.n.toNat = true)) ∧
      (u.phase = .run .mul ∧ u.pf = false ∧ u.k < min u.ln.toNat 32) ∧
      (v.phase = .run .mul ∧ v.pf = false ∧ ¬ v.k < min v.ln.toNat 32) := by decide

theorem witness_MulTakenToItsEndGivesTheProduct :
    let s := { State.launch cfg1 with f := 0xD, g := 6, ip := 0x13, n := 4 }
    s.phase = .idle ∧
      (s.cfg.checkPrecond = false ∨ (1 ≤ s.n.toNat ∧ s.n.toNat ≤ 30 ∧ s.ip.getLsbD s.n.toNat = true)) := by decide

theorem witness_TableAcceptsAndCompletes :
    let s := { State.launch cfg1 with n := 1 }
    s.phase = .idle ∧ (s.cfg.checkPrecond = false ∨ (1 ≤ s.n.toNat ∧ s.n.toNat ≤ 30)) ∧
      (running .table 0 0 0 2 0).phase = .run .table ∧ (running .table 0 0 0 2 0).pf = false ∧
      (running .table 0 0 0 2 0).pending = .empty := by decide

/-- The picked cell's write is admitted. -/
theorem witness_CellStepWritesOnePendingCell :
    let s := { table2 with pick := (3, 3) }
    s.phase = .run .table ∧ s.pf = false ∧ s.pending.wf ∧ s.pending ≠ .empty ∧ s.pending.mem s.pick.1 s.pick.2 = true ∧
      admitted s.cfg (cellAddr s.ltb.toNat s.ln.toNat s.pick.1 s.pick.2) = true ∧ nextCell s = some (3, 3) :=
  ⟨rfl, rfl, fullGrid_wf 2, by decide, by decide, by decide, by decide⟩

/-- The picked cell's write is refused, and no cell has been shown as new. -/
theorem witness_CellStepWritesOnePendingCell_refused :
    refusing.phase = .run .table ∧ refusing.pf = false ∧ refusing.pending.wf ∧ refusing.pending ≠ .empty ∧
      refusing.pending.mem refusing.pick.1 refusing.pick.2 = true ∧
      (∀ i ∈ refusing.shown, refusing.pending.mem (i / 2 ^ refusing.ln.toNat) (i % 2 ^ refusing.ln.toNat) = false) ∧
      admitted refusing.cfg (cellAddr refusing.ltb.toNat refusing.ln.toNat 2 0) = false :=
  ⟨rfl, rfl, fullGrid_wf 2, by decide, by decide, by decide, by decide⟩

theorem witness_RefusedCellEndsTheTable :
    refusing.phase = .run .table ∧ refusing.pf = false ∧ nextCell refusing = some (2, 0) ∧
      admitted refusing.cfg (cellAddr refusing.ltb.toNat refusing.ln.toNat 2 0) = false := by decide

theorem witness_FailedPreconditionEndsWithPerr :
    let s := { State.launch cfg1 with ip := 0x03, n := 4 }
    s.phase = .idle ∧ s.cfg.checkPrecond = true ∧
      ¬ (1 ≤ s.n.toNat ∧ s.n.toNat ≤ 30 ∧ s.ip.getLsbD s.n.toNat = true) ∧
      ¬ ¬ (1 ≤ s.n.toNat ∧ s.n.toNat ≤ 30) := by decide

theorem witness_RunningCommandReadsOnlyLatches : (running .irred 0 0 0 5 0).phase = .run .irred := rfl

theorem witness_CommandIsLostWhileAnotherRuns :
    (running .mul 0 0 0 0 0).phase = .run .mul ∧ Instr.add ≠ Instr.mul := by decide

theorem witness_IllegalWordSetsIllAndDone :
    let s := hostDoes (.write 0x00 4 6) idle0
    s.phase = .idle ∧ s.host = .write 0x00 4 6#32 :: [] ∧ s.sched = .host .old :: [] ∧ 5 < (6#32).toNat := by decide

theorem witness_WritesWhileBusyAreDropped :
    let s := hostDoes (.write 0x1C 4 6) (running .add 0 0 0 0 0)
    s.phase = .run .add ∧ 0x1C ∈ [0x00, 0x08, 0x0C, 0x10, 0x14, 0x1C] ∧ s.host = .write 0x1C 4 6#32 :: [] ∧
      s.sched = .host .old :: [] := by decide

/-- Idle, so that every clause's phase holds; the offset of each clause is a value of `off`. -/
theorem witness_HostWritesHaveTheListedEffect :
    ∀ off ∈ [0x04, 0x08, 0x0C, 0x10, 0x14, 0x1C, 0x18, 0x20, 0x24, 0x3C],
      let s := hostDoes (.write off 4 7) idle0
      s.host = .write off 4 7#32 :: [] ∧ s.sched = .host .old :: [] ∧ s.phase = .idle := by decide

theorem witness_HostReadsReturnTheListedValue :
    ∀ off ∈ [0x00, 0x04, 0x08, 0x0C, 0x10, 0x14, 0x18, 0x1C, 0x20, 0x24, 0x3C],
      let s := hostDoes (.read off 4) idle0
      s.host = .read off 4 :: [] ∧ s.sched = .host .old :: [] ∧ off % 4 = 0 ∧ off ≤ 0x3C := by decide

theorem witness_PollReadsStatusUntilDone :
    let s := hostDoes .poll idle0
    s.host = .poll :: [] ∧ s.sched = .host .old :: [] := by decide

theorem witness_PartialWindowAccessIsRefused :
    let s := hostDoes (.write 0x08 2 7) idle0
    let u := hostDoes (.read 0x0A 4) idle0
    (s.sched = .host .old :: [] ∧ s.host = .write 0x08 2 7#32 :: [] ∧ (2 ≠ 4 ∨ 0x08 % 4 ≠ 0)) ∧
      (u.sched = .host .old :: [] ∧ u.host = .read 0x0A 4 :: [] ∧ (4 ≠ 4 ∨ 0x0A % 4 ≠ 0)) := by decide

/-- The last byte of a table of grade 1 at 0x2000. -/
theorem witness_WriteToRunningTableIsRefused :
    let s := hostDoes (.writeMem 0x200F 1 7) (tableAt 1 0x2000)
    s.sched = .host .old :: [] ∧ s.host = .writeMem 0x200F 1 7#32 :: [] ∧ s.phase = .run .table ∧
      ¬ (windowBase s.cfg ≤ (0x200F#32).toNat ∧ (0x200F#32).toNat ≤ windowBase s.cfg + 0x3F) ∧
      s.ltb.toNat ≤ (0x200F#32).toNat + 0 ∧ (0x200F#32).toNat + 0 ≤ s.ltb.toNat + 4 * 4 ^ s.ln.toNat - 1 := by decide

theorem witness_RacingReadGivesOldOrNewWord :
    let s := hostDoes (.readMem 0x2004 4) { tableAt 1 0x2000 with mem := mem5, memAtAccept := mem5 }
    s.sched = .host .old :: [] ∧ s.host = .readMem 0x2004 4 :: [] ∧ s.Coherent ∧ s.TableProgress ∧
      s.phase = .run .table ∧ s.pf = false ∧ 0 < 2 ^ s.grade ∧ 1 < 2 ^ s.grade ∧
      (0x2004#32).toNat = cellAddr s.tableBase s.grade 0 1 ∧
      ¬ (windowBase s.cfg ≤ (0x2004#32).toNat ∧ (0x2004#32).toNat ≤ windowBase s.cfg + 0x3F) ∧
      s.memAtAccept.readLE (0x2004#32).toNat 4 = some 5 :=
  have h := tableAt_coherent 1 0x2000 (by decide)
  ⟨rfl, rfl, ⟨by decide, h.2, h.3, h.4, h.5, h.6, h.7, h.8, h.9, h.10, h.11⟩, tableAt_progress 1 0x2000 mem5, rfl, rfl, by decide,
    by decide, by decide, by decide, by decide⟩

theorem witness_MemoryReadsAreLittleEndian :
    let s := hostDoes (.readMem 0x2004 4) { idle0 with mem := mem5 }
    s.sched = .host .old :: [] ∧ s.host = .readMem 0x2004 4 :: [] ∧ s.phase ≠ .run .table ∧
      (0x2004#32).toNat % 4 = 0 ∧
      ¬ (windowBase s.cfg ≤ (0x2004#32).toNat ∧ (0x2004#32).toNat ≤ windowBase s.cfg + 0x3F) ∧
      ∀ j, j < 4 → s.mem.read ((0x2004#32).toNat + j) = some (if j = 0 then 5 else 0) := by decide

/-- The half word just above a running table of grade 1 at 0x2000. -/
theorem witness_HostStoresWriteOnlyTheirBytes :
    let s := hostDoes (.writeMem 0x2010 2 7) (tableAt 1 0x2000)
    s.sched = .host .old :: [] ∧ s.host = .writeMem 0x2010 2 7#32 :: [] ∧ (0x2010#32).toNat % 2 = 0 ∧
      ¬ (windowBase s.cfg ≤ (0x2010#32).toNat ∧ (0x2010#32).toNat ≤ windowBase s.cfg + 0x3F) ∧ s.phase = .run .table ∧
      ∀ j, j < 2 → (0x2010#32).toNat + j < s.ltb.toNat ∨ s.ltb.toNat + 4 * 4 ^ s.ln.toNat ≤ (0x2010#32).toNat + j := by
  decide

theorem witness_ResultChangesOnlyAtCompletion :
    let s := { running .add 5 3 0 0 0 with sched := [.block (0, 0)] }
    step s = .next (after (step s)) ∧ (after (step s)).result ≠ s.result :=
  ⟨rfl, by decide⟩

theorem witness_OperandRegistersChangeOnlyByTheHost :
    let s := hostDoes (.write 0x08 4 7) idle0
    step s = .next (after (step s)) ∧ (after (step s)).f ≠ s.f :=
  ⟨rfl, by decide⟩

theorem witness_LatchesChangeOnlyAtAcceptance :
    let s := hostDoes (.write 0x00 4 1) { idle0 with f := 7 }
    step s = .next (after (step s)) ∧ (after (step s)).lf ≠ s.lf :=
  ⟨rfl, by decide⟩

theorem witness_PhaseChangesOnlyByTheLifecycle :
    let s := hostDoes (.write 0x00 4 1) idle0
    step s = .next (after (step s)) ∧ (after (step s)).phase ≠ s.phase :=
  ⟨rfl, by decide⟩

/-- BERR rises in the refused cell step of a coherent TABLE. -/
theorem witness_StatusBitsRiseOnlyAsListed_berr :
    let s := { tableAt 15 0x1000 with sched := [.block (32767, 32767)] }
    s.Coherent ∧ step s = .next (after (step s)) ∧ s.status.berr = false ∧ (after (step s)).status.berr = true ∧
      s.status.done = false ∧ (after (step s)).status.done = true :=
  have h := tableAt_coherent 15 0x1000 (by decide)
  ⟨⟨h.1, h.2, h.3, h.4, h.5, h.6, h.7, h.8, h.9, h.10, h.11⟩, rfl, rfl, by decide, rfl, by decide⟩

/-- ILL rises at an illegal word, BSYERR at a write while busy. -/
theorem witness_StatusBitsRiseOnlyAsListed_ill_bsyerr :
    let s := hostDoes (.write 0x00 4 6) idle0
    let u := hostDoes (.write 0x08 4 6) (running .add 0 0 0 0 0)
    (s.Coherent ∧ step s = .next (after (step s)) ∧ s.status.ill = false ∧ (after (step s)).status.ill = true) ∧
      (u.Coherent ∧ step u = .next (after (step u)) ∧ u.status.bsyerr = false ∧ (after (step u)).status.bsyerr = true) :=
  have h := idle0_coherent
  have k := running_coherent .add 0 0 0 0 0 (by decide)
  ⟨⟨⟨h.1, h.2, h.3, h.4, h.5, h.6, h.7, h.8, h.9, h.10, h.11⟩, rfl, rfl, by decide⟩,
    ⟨⟨k.1, k.2, k.3, k.4, k.5, k.6, k.7, k.8, k.9, k.10, k.11⟩, rfl, rfl, by decide⟩⟩

/-- PERR rises at the completion of a command whose check failed. -/
theorem witness_StatusBitsRiseOnlyAsListed_perr :
    let s := { running .irred 0 0 0 31 0 with cfg := cfg1, pf := true, sched := [.block (0, 0)] }
    s.Coherent ∧ step s = .next (after (step s)) ∧ s.status.perr = false ∧ (after (step s)).status.perr = true :=
  have k := running_coherent .irred 0 0 0 31 0 (by decide)
  ⟨⟨k.1, k.2, fun h => (by cases h), fun h => (by cases h), k.5, k.6, k.7, k.8, fun _ _ h => (by cases h),
    k.10, fun _ h => (by cases h)⟩, rfl, rfl,
    by decide⟩

/-- CLRST clears every bit that is set, by its window offset and by its bus address. -/
theorem witness_StatusBitsFallOnlyAsListed :
    let full : Status := ⟨true, true, true, true, true⟩
    let s := hostDoes (.write 0x04 4 0x3E) { idle0 with status := full }
    let u := hostDoes (.writeMem 0x40000004 4 0x3E) { idle0 with status := full }
    (step s = .next (after (step s)) ∧ ¬ resetTurn s ∧ s.status = full ∧ (after (step s)).status = Status.clear) ∧
      (step u = .next (after (step u)) ∧ ¬ resetTurn u ∧ u.status = full ∧ (after (step u)).status = Status.clear) :=
  ⟨⟨rfl, fun ⟨_, h⟩ => (by cases h), rfl, by decide⟩, ⟨rfl, fun ⟨_, h⟩ => (by cases h), rfl, by decide⟩⟩

theorem witness_BlockWritesOnlyTheTablesCells :
    let s := { tableAt 1 0x2000 with sched := [.block (1, 1)] }
    s.Coherent ∧ s.sched = .block (1, 1) :: [] ∧ step s = .next (after (step s)) ∧ (after (step s)).mem ≠ s.mem :=
  have h := tableAt_coherent 1 0x2000 (by decide)
  ⟨⟨h.1, h.2, h.3, h.4, h.5, h.6, h.7, h.8, h.9, h.10, h.11⟩, rfl, rfl, by decide⟩

theorem witness_ParametersAndCapsNeverChange :
    let s := { idle0 with sched := [.reset] }
    step s = .next (after (step s)) := rfl

theorem witness_StepKeepsCoherence :
    let s := { tableAt 1 0x2000 with sched := [.block (1, 1)] }
    s.Coherent ∧ step s = .next (after (step s)) :=
  have h := tableAt_coherent 1 0x2000 (by decide)
  ⟨⟨h.1, h.2, h.3, h.4, h.5, h.6, h.7, h.8, h.9, h.10, h.11⟩, rfl⟩

/-- Two iterations into the traced product S1. -/
theorem witness_StepKeepsMulProgress :
    let s := { running .mul 0xD 0x6 0x13 4 0 with acc := 0x9, fw := 0x1, gw := 0x1, k := 2, sched := [.block (0, 0)] }
    s.MulProgress ∧ step s = .next (after (step s)) ∧ (after (step s)).phase = .run .mul :=
  ⟨fun _ _ => ⟨by decide, by decide⟩, rfl, rfl⟩

theorem witness_StepKeepsTableProgress :
    let s := { tableAt 1 0x2000 with mem := mem5, memAtAccept := mem5, sched := [.block (1, 1)] }
    s.Coherent ∧ s.TableProgress ∧ step s = .next (after (step s)) ∧ (after (step s)).phase = .run .table :=
  have h := tableAt_coherent 1 0x2000 (by decide)
  ⟨⟨by decide, h.2, h.3, h.4, h.5, h.6, h.7, h.8, h.9, h.10, h.11⟩, tableAt_progress 1 0x2000 mem5, rfl, by decide⟩

/-- MUL at grade 2^32 - 1, at its most steps, 33. -/
theorem witness_RunningCommandsCompleteInBoundedSteps :
    let s := { running .mul 1 1 1 0xFFFFFFFF 0 with sched := (List.replicate 33 (0, 0)).map .block }
    s.Coherent ∧ s.phase = .run .mul ∧ s.sched = (List.replicate 33 (0, 0)).map .block ∧
      stepsLeft .mul s ≤ (List.replicate 33 ((0, 0) : Nat × Nat)).length :=
  have h := running_coherent .mul 1 1 1 0xFFFFFFFF 0 (by decide)
  ⟨⟨h.1, h.2, h.3, h.4, h.5, h.6, h.7, h.8, h.9, h.10, fun hp => (by cases hp)⟩, rfl, rfl, by decide⟩

/-- The table of grade 0, whose one cell has been written. -/
def table0Done : State :=
  { running .table 0 0 0 0 0x4000 with tip := 3, mem := [(0x4000, 0), (0x4001, 0), (0x4002, 0), (0x4003, 0)] }

theorem witness_CompletedTableHoldsEveryCell :
    table0Done.TableProgress ∧ table0Done.phase = .run .table ∧ table0Done.pf = false ∧ table0Done.pending = .empty := by
  refine ⟨fun _ _ => ⟨by decide, fun r c hr hc => ?_⟩, rfl, rfl, rfl⟩
  obtain rfl : r = 0 := Nat.lt_one_iff.mp hr
  obtain rfl : c = 0 := Nat.lt_one_iff.mp hc
  decide

/-- A refused cell of a large table, taken first. -/
theorem witness_CellsAfterBerrAreOldOrNew :
    let s := { tableAt 15 0x1000 with sched := [.block (32767, 32767)] }
    s.TableProgress ∧ s.phase = .run .table ∧ s.pf = false ∧ s.sched = .block (32767, 32767) :: [] ∧
      step s = .next (after (step s)) ∧ (after (step s)).phase = .idle ∧ 0 < 2 ^ s.grade :=
  ⟨tableAt_progress 15 0x1000 [], rfl, rfl, rfl, rfl, by decide, by decide⟩

/-- A table of grade 1 whose cell (0, 1) was shown as new and has been written, and whose cell (1, 1) is refused. -/
def shownTable : State :=
  { tableAt 1 0x2000 with
    cfg := { cfg0 with admits := [(0x2000, 0x2008)] }, pending := .grid 1 [1], shown := [1]
    mem := Memory.writeLE [] 0x2004 4 0, sched := [.block (1, 1)] }

theorem shownTable_coherent : shownTable.Coherent :=
  have h := tableAt_coherent 1 0x2000 (by decide)
  ⟨Memory.wf_writeLE _ nil_wf (by decide), h.2, h.3, h.4, h.5, h.6, h.7,
    ⟨List.pairwise_singleton _ _, by decide, by decide⟩,
    fun _ _ hq => ⟨rfl, rfl, ((CellSet.grid.injEq ..).mp hq).1.symm⟩, List.pairwise_singleton _ _, fun _ _ => by decide⟩

theorem shownTable_progress : shownTable.TableProgress := by
  refine fun _ _ => ⟨rfl, ?_⟩
  have h : ∀ r, r < 2 → ∀ c, c < 2 → if shownTable.pending.mem r c = true then
      ∀ j, j < 4 → shownTable.mem.read (cellAddr 0x2000 1 r c + j) = shownTable.memAtAccept.read (cellAddr 0x2000 1 r c + j)
    else admitted shownTable.cfg (cellAddr 0x2000 1 r c) = true ∧
      shownTable.mem.readLE (cellAddr 0x2000 1 r c) 4 = some (tableCell 1 r c) := by decide
  exact fun r c hr hc => h r hr c hc

theorem witness_CellsAfterBerrAreOldOrNew_shown :
    shownTable.TableProgress ∧ shownTable.phase = .run .table ∧ shownTable.pf = false ∧
      shownTable.sched = .block (1, 1) :: [] ∧ step shownTable = .next (after (step shownTable)) ∧
      (after (step shownTable)).phase = .idle ∧ shownTable.Coherent ∧ 0 < 2 ^ shownTable.grade ∧
      1 < 2 ^ shownTable.grade ∧ 0 * 2 ^ shownTable.grade + 1 ∈ shownTable.shown :=
  ⟨shownTable_progress, rfl, rfl, rfl, rfl, by decide, shownTable_coherent, by decide, by decide, by decide⟩

/-- A table of grade 1 in row-major order and in the reverse order. -/
theorem witness_CellOrderDoesNotShow :
    let s := tableAt 1 0x2000
    let o := core.run 5 { s with sched := [(0, 0), (0, 1), (1, 0), (1, 1), (0, 0)].map .block }
    let o' := core.run 5 { s with sched := [(1, 1), (1, 0), (0, 1), (0, 0), (0, 0)].map .block }
    s.Coherent ∧ s.TableProgress ∧ s.phase = .run .table ∧ s.pf = false ∧ s.status.berr = false ∧ s.host = [] ∧
      o = .next (after o) ∧ o' = .next (after o') ∧ (after o).phase = .idle ∧ (after o').phase = .idle ∧
      (after o).status.berr = false ∧ (after o').status.berr = false :=
  ⟨tableAt_coherent 1 0x2000 (by decide), tableAt_progress 1 0x2000 [], rfl, rfl, rfl, rfl, rfl, rfl, by decide,
    by decide, by decide, by decide⟩

theorem witness_LargeTablesHaveARefusedCell : 15 ≤ 15 := by decide

theorem witness_LargeTablesEndWithBerr :
    let s := { tableAt 15 0x1000 with sched := [.block (32767, 32767)] }
    s.Coherent ∧ s.TableProgress ∧ s.phase = .run .table ∧ s.pf = false ∧ 15 ≤ s.grade ∧
      s.sched = .block (32767, 32767) :: [] ∧ step s = .next (after (step s)) ∧ (after (step s)).phase = .idle :=
  have h := tableAt_coherent 15 0x1000 (by decide)
  ⟨⟨h.1, h.2, h.3, h.4, h.5, h.6, h.7, h.8, h.9, h.10, h.11⟩, tableAt_progress 15 0x1000 [], rfl, rfl, by decide, rfl, rfl,
    by decide⟩

theorem witness_WrittenCellsFitInAWord : admitted cfg0 (cellAddr 0x1000 2 3 3) = true := by decide

theorem witness_ProductIsTheRemainder : validOperands 30 0x40000003 0x3FFFFFFF 0x3FFFFFFF = true := by decide

theorem witness_ArithmeticLawsModuloIp :
    validOperands 5 0x23 0x7 0xD = true ∧ (0x1F#32).toNat < 2 ^ 5 := by decide

theorem witness_HighBitsOfTheProductComeFromF : 1 ≤ 1 := by decide

theorem witness_GradesAboveTheLegalRange :
    ((31 = 31 ∨ 31 = 32) ∧ (0x40000000#32).toNat < 2 ^ 31) ∧ ((32 = 31 ∨ 32 = 32) ∧ (0xFFFFFFFF#32).toNat < 2 ^ 32) ∧
      32 < 33 := by decide

theorem witness_MultiplyCornerCases : 1 ≤ 1 := by decide

theorem witness_AdderLaws : (3#32).toNat < 2 ^ 2 ∧ (1#32).toNat < 2 ^ 2 := by decide

theorem witness_RomModulusHasDegreeN :
    (1 ≤ 31 ∧ 31 ≤ 31) ∧ (2 ≤ 2 ∧ 2 ≤ 31) ∧ (1 ≤ 1 ∨ 32 ≤ 1) ∧ (32 ≤ 1 ∨ 32 ≤ 32) := by decide

theorem witness_TableCellsObeyTheListedProperties : 1 ≤ 30 ∧ 30 ≤ 30 ∧ 0x3FFFFFFF < 2 ^ 30 ∧ 1 < 2 ^ 30 := by decide

end Sys2Proof.Tests
end

section
/-! Proofs about the scope of the model: what lies outside every step's reach. -/

namespace Sys2Proof.Machine

/-- The agents' own fields do not hold the parameters. -/
theorem SameBlock.cfg {s u : State} (h : SameBlock s u) : u.cfg = s.cfg := by rw [h]

theorem accept_cfg (i : Instr) (s : State) : (accept i (initOf i) s).cfg = s.cfg := by
  obtain ⟨⟨-, -, -, -, -, hcfg, -, -⟩, -⟩ := accept_effect i s
  exact hcfg

theorem blockStep_cfg (i : Instr) (s : State) : (blockStep (workOf i) (finishOf i) s).cfg = s.cfg := by
  obtain ⟨⟨-, -, -, -, -, hcfg⟩, -⟩ := blockStep_effect i s
  exact hcfg

/-- No kind of move changes the parameters, a reset event included (R13). -/
theorem Move.cfg {s t : State} (m : Move s t) : t.cfg = s.cfg := by
  cases m with
  | quiet hu => exact hu.cfg
  | block u hu i _ ht => rw [ht, blockStep_cfg, hu.cfg]
  | accept u hu _ i _ ht => rw [ht, accept_cfg, hu.cfg]
  | reset u hu _ ht => rw [ht, platformReset_cfg, hu.cfg]
  | illegal u hu _ _ ht => rw [ht, raise_ill_cfg, hu.cfg]
  | dropped u hu _ _ ht => rw [ht, raise_bsyerr_cfg, hu.cfg]
  | clear u hu _ _ ht
  | writeF u hu _ _ _ ht
  | writeG u hu _ _ _ ht
  | writeIp u hu _ _ _ ht
  | writeN u hu _ _ _ ht
  | writeTbase u hu _ _ _ ht
  | memWrite u hu _ _ _ _ _ _ ht
  | shows u hu _ _ _ _ _ _ ht => rw [ht, hu.cfg]

theorem step_cfg {s t : State} (h : step s = .next t) : t.cfg = s.cfg := (step_move h).cfg

/-- CAPS is a constant of the parameters (R47). -/
theorem hostRead_caps (s : State) : hostRead (some .caps) s = capsWord s.cfg := rfl

end Sys2Proof.Machine

namespace Sys2Proof.Claims

open Sys2Proof Sys2Proof.Machine

/-- Settles O39: each kind of move keeps the parameters, and CAPS is computed from them. -/
theorem parametersAndCapsNeverChange : Obligations.ParametersAndCapsNeverChange := by
  intro s t h
  have hcfg : t.cfg = s.cfg := step_cfg h
  exact ⟨hcfg, by rw [hostRead_caps, hostRead_caps, hcfg]⟩

end Sys2Proof.Claims
end

section
/-! Proofs about the registers: what can change the phase, STATUS, RESULT, the latches and the operand registers. -/

namespace Sys2Proof.Machine

/-- The agents' own fields stand free, and every other field of `u` is that of `s`. -/
theorem SameBlock.exists_eq {s u : State} (h : SameBlock s u) :
    ∃ host sched pick draw reads,
      u = { s with host := host, sched := sched, pick := pick, draw := draw, reads := reads } :=
  ⟨_, _, _, _, _, h⟩

/-! What a step does to a command: it starts one, takes it further, or leaves it alone. -/

/-- The step leaves the phase, pf, RESULT and the latches as they are. -/
structure KeepsCommand (s t : State) : Prop where
  phase : t.phase = s.phase
  pf : t.pf = s.pf
  result : t.result = s.result
  latches : t.lop = s.lop ∧ t.lf = s.lf ∧ t.lg = s.lg ∧ t.lip = s.lip ∧ t.ln = s.ln ∧ t.ltb = s.ltb

/-- The moves of `Move` by what they do to the phase, STATUS, RESULT and the latches. -/
inductive CommandMove (s t : State) : Prop where
  /-- a reset event (R290) -/
  | reset (turn : Claims.resetTurn s) (idle : t.phase = .idle) (status : t.status = .clear)
  /-- a block step of the running command (R243, R244) -/
  | block (u : State) (hu : SameBlock s u) (i : Instr) (running : s.phase = .run i)
      (ht : t = blockStep (workOf i) (finishOf i) u)
  /-- acceptance (R241) -/
  | accept (u : State) (hu : SameBlock s u) (i : Instr) (idle : s.phase = .idle)
      (ht : t = Machine.accept i (initOf i) u)
  /-- an illegal command word (R248) -/
  | illegal (keeps : KeepsCommand s t) (idle : s.phase = .idle)
      (status : t.status = { s.status with ill := true, done := true })
  /-- a write dropped while busy (R76) -/
  | dropped (keeps : KeepsCommand s t) (busy : s.phase ≠ .idle) (status : t.status = { s.status with bsyerr := true })
  /-- a write of STATUS (R75) -/
  | clear (keeps : KeepsCommand s t) (v : Word) (writes : s.HostWrites .status v)
      (status : t.status = s.status.clearBits v)
  /-- every other move -/
  | other (keeps : KeepsCommand s t) (status : t.status = s.status)

theorem Move.commandMove {s t : State} (m : Move s t) : CommandMove s t := by
  have keeps : ∀ {u}, SameBlock s u → KeepsCommand s u ∧ u.status = s.status := fun hu => by
    obtain ⟨_, _, _, _, _, rfl⟩ := hu.exists_eq
    exact ⟨⟨rfl, rfl, rfl, rfl, rfl, rfl, rfl, rfl, rfl⟩, rfl⟩
  cases m with
  | reset u hu turn ht => exact .reset turn (by rw [ht, platformReset_phase]) (by rw [ht, platformReset_status])
  | block u hu i running ht => exact .block u hu i running ht
  | accept u hu _ i idle ht => exact .accept u hu i idle ht
  | illegal u hu _ idle ht =>
    obtain ⟨k, hst⟩ := keeps hu
    subst ht
    exact .illegal ⟨k.phase, k.pf, k.result, k.latches⟩ idle (by rw [raise_ill_status, hst])
  | dropped u hu _ busy ht =>
    obtain ⟨k, hst⟩ := keeps hu
    subst ht
    exact .dropped ⟨k.phase, k.pf, k.result, k.latches⟩ busy (by rw [raise_bsyerr_status, hst])
  | clear u hu v writes ht =>
    obtain ⟨k, hst⟩ := keeps hu
    subst ht
    exact .clear ⟨k.phase, k.pf, k.result, k.latches⟩ v writes (by rw [hst])
  | writeF u hu _ _ _ ht
  | writeG u hu _ _ _ ht
  | writeIp u hu _ _ _ ht
  | writeN u hu _ _ _ ht
  | writeTbase u hu _ _ _ ht
  | memWrite u hu _ _ _ _ _ _ ht
  | shows u hu _ _ _ _ _ _ ht =>
    obtain ⟨k, hst⟩ := keeps hu
    subst ht
    exact .other ⟨k.phase, k.pf, k.result, k.latches⟩ hst
  | quiet hu => exact .other (keeps hu).1 (keeps hu).2

theorem step_commandMove {s t : State} (h : step s = .next t) : CommandMove s t := (step_move h).commandMove

/-- F, G, IP, N and TBASE are the same in both states. -/
def SameOperands (s t : State) : Prop :=
  t.f = s.f ∧ t.g = s.g ∧ t.ip = s.ip ∧ t.n = s.n ∧ t.tbase = s.tbase

/-- The moves that may change an operand register: a reset event, and a host write while idle, which leaves RESULT, STATUS,
the phase and memory as they are (R75). -/
theorem Move.operands {s t : State} (m : Move s t) :
    Claims.resetTurn s ∨ SameOperands s t ∨
      (s.phase = .idle ∧ t.phase = .idle ∧ s.host ≠ [] ∧ t.result = s.result ∧ t.status = s.status ∧ t.mem = s.mem) := by
  have same : ∀ {u}, SameBlock s u → SameOperands s u := fun hu => by
    obtain ⟨_, _, _, _, _, rfl⟩ := hu.exists_eq
    exact ⟨rfl, rfl, rfl, rfl, rfl⟩
  cases m with
  | reset u hu turn => exact .inl turn
  | block u hu i _ ht =>
    obtain ⟨_, _, _, _, _, rfl⟩ := hu.exists_eq
    obtain ⟨⟨hf, hg, hip, hn, htb, -⟩, -⟩ := ht ▸ blockStep_effect i _
    exact .inr (.inl ⟨hf, hg, hip, hn, htb⟩)
  | accept u hu _ i _ ht =>
    obtain ⟨_, _, _, _, _, rfl⟩ := hu.exists_eq
    obtain ⟨⟨hf, hg, hip, hn, htb, -⟩, -⟩ := ht ▸ accept_effect i _
    exact .inr (.inl ⟨hf, hg, hip, hn, htb⟩)
  | illegal u hu _ _ ht
  | dropped u hu _ _ ht
  | clear u hu _ _ ht
  | memWrite u hu _ _ _ _ _ _ ht
  | shows u hu _ _ _ _ _ _ ht =>
    have hsame : SameOperands s u := same hu
    subst ht
    exact .inr (.inl hsame)
  | writeF u hu acts idle _ ht
  | writeG u hu acts idle _ ht
  | writeIp u hu acts idle _ ht
  | writeN u hu acts idle _ ht
  | writeTbase u hu acts idle _ ht =>
    obtain ⟨_, _, _, _, _, rfl⟩ := hu.exists_eq
    subst ht
    exact .inr (.inr ⟨idle, idle, acts, rfl, rfl, rfl⟩)
  | quiet hu => exact .inr (.inl (same hu))

/-! A block step and the operand registers. -/

/-- Other values in F, G, IP, N and TBASE. -/
def withOperands (f g ip n tbase : Word) (s : State) : State :=
  { s with f := f, g := g, ip := ip, n := n, tbase := tbase }

theorem workOf_withOperands (i : Instr) (f g ip n tbase : Word) (s : State) :
    workOf i (withOperands f g ip n tbase s) = (workOf i s).map (withOperands f g ip n tbase) := by
  cases i with
  | nop | add | sub | irred => rfl
  | mul =>
    change mulWork _ = (mulWork s).map _
    unfold mulWork
    rw [apply_ite (Option.map _)]
    rfl
  | table =>
    change tableWork _ = (tableWork s).map _
    have hcell : nextCell (withOperands f g ip n tbase s) = nextCell s := rfl
    unfold tableWork
    rw [hcell]
    cases nextCell s with
    | none => rfl
    | some cell =>
      simp only [Option.map_some, cellStep]
      rw [apply_ite (withOperands f g ip n tbase)]
      rfl

theorem finishOf_withOperands (i : Instr) (f g ip n tbase : Word) (s : State) :
    finishOf i (withOperands f g ip n tbase s) = withOperands f g ip n tbase (finishOf i s) := by
  cases i <;> rfl

/-- A block step neither reads nor writes F, G, IP, N and TBASE (R50). -/
theorem blockStep_withOperands (i : Instr) (f g ip n tbase : Word) (s : State) :
    blockStep (workOf i) (finishOf i) (withOperands f g ip n tbase s)
      = withOperands f g ip n tbase (blockStep (workOf i) (finishOf i) s) := by
  have hpf : (withOperands f g ip n tbase s).pf = s.pf := rfl
  unfold blockStep
  rw [workOf_withOperands, finishOf_withOperands, hpf]
  split
  · rfl
  · cases workOf i s <;> rfl

/-! Write-1-to-clear, bit by bit. -/

@[simp] theorem Status.clearBits_done (st : Status) (v : Word) : (st.clearBits v).done = (st.done && !v.getLsbD 1) := rfl
@[simp] theorem Status.clearBits_ill (st : Status) (v : Word) : (st.clearBits v).ill = (st.ill && !v.getLsbD 2) := rfl
@[simp] theorem Status.clearBits_bsyerr (st : Status) (v : Word) : (st.clearBits v).bsyerr = (st.bsyerr && !v.getLsbD 3) := rfl
@[simp] theorem Status.clearBits_perr (st : Status) (v : Word) : (st.clearBits v).perr = (st.perr && !v.getLsbD 4) := rfl
@[simp] theorem Status.clearBits_berr (st : Status) (v : Word) : (st.clearBits v).berr = (st.berr && !v.getLsbD 5) := rfl

/-- pf = 1 needs CHECK_PRECOND = 1 (R58). -/
theorem State.Coherent.checked {s : State} (h : s.Coherent) (hpf : s.pf = true) : s.cfg.checkPrecond = true := by
  by_contra hc
  have := (h.unchecked (by simpa using hc)).1
  simp [hpf] at this

end Sys2Proof.Machine

namespace Sys2Proof.Claims

open Sys2Proof Sys2Proof.Machine

/-- Settles O32: of the moves, only a reset event and the last block step of a command write RESULT. -/
theorem resultChangesOnlyAtCompletion : Obligations.ResultChangesOnlyAtCompletion := by
  intro s t h hne
  cases step_commandMove h with
  | reset turn => exact .inl turn
  | block u hu i running ht =>
    obtain ⟨_, _, _, _, _, rfl⟩ := hu.exists_eq
    obtain ⟨-, -, -, hend⟩ := ht ▸ blockStep_effect i _
    rcases hend with ⟨-, -, -, hres⟩ | ⟨hidle, -, hdone, -, -, hres⟩
    · exact absurd hres hne
    · rcases hres with ⟨-, hres | ⟨hpf, hres⟩⟩ | ⟨-, -, -, -, -, hres⟩
      · exact absurd hres hne
      · exact .inr ⟨hpf, hidle, hdone, by simpa only [running, Phase.run.injEq] using hres⟩
      · exact absurd hres hne
  | accept u hu i idle ht =>
    obtain ⟨_, _, _, _, _, rfl⟩ := hu.exists_eq
    obtain ⟨⟨-, -, -, -, -, -, hres, -⟩, -⟩ := ht ▸ accept_effect i _
    exact absurd hres hne
  | illegal keeps | dropped keeps | clear keeps | other keeps => exact absurd keeps.result hne

/-- Settles O34: acceptance is the one move besides a reset event that loads the latches. -/
theorem latchesChangeOnlyAtAcceptance : Obligations.LatchesChangeOnlyAtAcceptance := by
  intro s t h hne
  cases step_commandMove h with
  | reset turn => exact .inl turn
  | block u hu i running ht =>
    obtain ⟨_, _, _, _, _, rfl⟩ := hu.exists_eq
    obtain ⟨-, ⟨hlop, hlf, hlg, hlip, hln, hltb, -⟩, -⟩ := ht ▸ blockStep_effect i _
    simp [hlop, hlf, hlg, hlip, hln, hltb] at hne
  | accept u hu i idle ht =>
    obtain ⟨_, _, _, _, _, rfl⟩ := hu.exists_eq
    obtain ⟨-, ⟨hlop, hlf, hlg, hlip, hln, hltb, -⟩, hphase, -⟩ := ht ▸ accept_effect i _
    exact .inr ⟨idle, i, hphase, hlop, hlf, hlg, hlip, hln, hltb⟩
  | illegal keeps | dropped keeps | clear keeps | other keeps =>
    obtain ⟨hlop, hlf, hlg, hlip, hln, hltb⟩ := keeps.latches
    simp [hlop, hlf, hlg, hlip, hln, hltb] at hne

/-- Settles O35: the moves that change the phase are a reset event, acceptance and the last block step of a command. -/
theorem phaseChangesOnlyByTheLifecycle : Obligations.PhaseChangesOnlyByTheLifecycle := by
  intro s t h hne
  cases step_commandMove h with
  | reset turn idle => exact .inl ⟨turn, idle⟩
  | block u hu i running ht =>
    obtain ⟨_, _, _, _, _, rfl⟩ := hu.exists_eq
    obtain ⟨-, -, -, ⟨hphase, -⟩ | ⟨hidle, hpf, hdone, -⟩⟩ := ht ▸ blockStep_effect i _
    · exact absurd hphase hne
    · exact .inr (.inr ⟨by simp [running], hidle, hdone, hpf⟩)
  | accept u hu i idle ht =>
    obtain ⟨-, ⟨hlop, -⟩, hphase, hstatus⟩ := ht ▸ accept_effect i u
    exact .inr (.inl ⟨idle, ⟨i, hphase, hlop⟩, by rw [hstatus]⟩)
  | illegal keeps | dropped keeps | clear keeps | other keeps => exact absurd keeps.phase hne

/-- Settles O33: a move that writes one of the five registers is a reset event or a host write while idle. -/
theorem operandRegistersChangeOnlyByTheHost : Obligations.OperandRegistersChangeOnlyByTheHost := by
  intro s t h hne
  rcases (step_move h).operands with turn | ⟨hf, hg, hip, hn, htb⟩ | hwrite
  · exact .inl turn
  · simp [hf, hg, hip, hn, htb] at hne
  · exact .inr hwrite

/-- Settles O20: the block step commutes with replacing the five registers. -/
theorem runningCommandReadsOnlyLatches : Obligations.RunningCommandReadsOnlyLatches := by
  intro s i f g ip n tbase hrun
  refine ⟨_, exec_running hrun, ?_⟩
  exact (exec_running (s := withOperands f g ip n tbase s) hrun).trans
    (congrArg _ (blockStep_withOperands i f g ip n tbase s))

/-- Settles O36: the moves that can set a STATUS bit are a block step, an illegal word and a dropped write. -/
theorem statusBitsRiseOnlyAsListed : Obligations.StatusBitsRiseOnlyAsListed := by
  intro s t hs h
  cases step_commandMove h with
  | reset _ _ hst => simp [hst, Status.clear]
  | block u hu i running ht =>
    obtain ⟨_, _, _, _, _, rfl⟩ := hu.exists_eq
    obtain ⟨-, -, ⟨hill, hbsy⟩, ⟨-, -, hst, -⟩ | ⟨hidle, -, hdone, hperr, hmem, hend⟩⟩ := ht ▸ blockStep_effect i _
    · simp +contextual [hst]
    · have hbusy : s.phase ≠ .idle := by simp [running]
      refine ⟨by simp +contextual [hill], by simp +contextual [hbsy], fun h0 h1 => ?_, fun h0 h1 => ?_,
        fun _ _ => .inl ⟨hbusy, hidle⟩⟩
      · have hpf : s.pf = true := by simpa [h0, h1] using hperr
        exact ⟨hs.checked hpf, hpf, hbusy, hidle, hdone⟩
      · rcases hend with ⟨hberr, -⟩ | ⟨rfl, hpf, hpend, hempty, -⟩
        · simp [hberr, h0] at h1
        · exact ⟨running, hpf, hpend, hidle, hdone, hempty, hmem⟩
  | accept u hu i _ ht =>
    obtain ⟨_, _, _, _, _, rfl⟩ := hu.exists_eq
    obtain ⟨-, -, -, hst⟩ := ht ▸ accept_effect i _
    simp +contextual [hst]
  | illegal keeps idle hst =>
    have hidle : t.phase = .idle := keeps.phase.trans idle
    simp +contextual [hst, idle, hidle]
  | dropped keeps busy hst => simp +contextual [hst, busy, keeps.phase]
  | clear _ _ _ hst | other _ hst => simp +contextual [hst]

/-- Settles O37: of the moves that are no reset event, only a write of STATUS clears an error bit, and only that and
acceptance clear DONE. -/
theorem statusBitsFallOnlyAsListed : Obligations.StatusBitsFallOnlyAsListed := by
  intro s t h hreset cleared
  cases step_commandMove h with
  | reset turn => exact absurd turn hreset
  | block u hu i _ ht =>
    obtain ⟨_, _, _, _, _, rfl⟩ := hu.exists_eq
    obtain ⟨-, -, ⟨hill, hbsy⟩, ⟨-, -, hst, -⟩ | ⟨-, -, hdone, hperr, -, hend⟩⟩ := ht ▸ blockStep_effect i _
    · simp +contextual [hst]
    · have hberr : s.status.berr = true → t.status.berr = true := fun h1 => by
        rcases hend with ⟨hberr, -⟩ | ⟨-, -, -, -, hberr, -⟩
        · exact hberr.trans h1
        · exact hberr
      simp +contextual [hill, hbsy, hdone, hperr, hberr]
  | accept u hu i idle ht =>
    obtain ⟨_, _, _, _, _, rfl⟩ := hu.exists_eq
    obtain ⟨-, -, hphase, hst⟩ := ht ▸ accept_effect i _
    simp +contextual [hst, idle, hphase]
  | illegal _ _ hst | dropped _ _ hst | other _ hst => simp +contextual [hst]
  | clear keeps v writes hst =>
    have hbit : ∀ b, v.getLsbD b = true → cleared b := fun b hb => ⟨v, hb, writes, hst, keeps.phase⟩
    simp +contextual [hst, hbit]

/-- Settles O7: every field is read off the launch state, and CAPS off CHECK_PRECOND at its default. -/
theorem resetStateIsAsListed : Obligations.ResetStateIsAsListed :=
  ⟨rfl, by decide, ⟨rfl, rfl, rfl, rfl, rfl, rfl⟩, ⟨rfl, rfl, rfl, rfl, rfl, rfl⟩, by decide, rfl,
    ⟨rfl, rfl, rfl, rfl, rfl, rfl⟩, ⟨rfl, rfl, rfl, rfl⟩, rfl, rfl, rfl, fun _ => ⟨rfl, rfl⟩⟩

end Sys2Proof.Claims
end

section
/-! Proofs about coherence: each transition keeps it, and so each step does. -/

namespace Sys2Proof.Machine

theorem launch_coherent (c : Config) : (State.launch c).Coherent where
  mem_wf := ⟨List.Pairwise.nil, fun x hx => by cases hx⟩
  tbase_aligned := rfl
  pf_idle _ := rfl
  unchecked _ := ⟨rfl, rfl⟩
  done_busy _ := rfl
  latches_busy _ hp := by cases hp
  k_le := Nat.zero_le _
  pending_wf := trivial
  pending_grade _ _ hp := by cases hp
  shown_rises := List.Pairwise.nil
  shown_admitted hp := by cases hp

/-- The agents' own fields take no part in coherence. -/
theorem SameBlock.coherent {s u : State} (hu : SameBlock s u) (h : s.Coherent) : u.Coherent := by
  obtain ⟨_, _, _, _, _, rfl⟩ := hu.exists_eq
  exact { h with }

/-- A word stored in TBASE is a multiple of 4 (R37). -/
theorem tbaseStored_aligned (v : Word) : (tbaseStored v).toNat % 4 = 0 := by
  have h : tbaseStored v &&& 3#32 = 0#32 := by
    rw [tbaseStored, BitVec.and_assoc, show 0xFFFFFFFC#32 &&& 3#32 = 0#32 by decide, BitVec.and_zero]
  have hn := congrArg BitVec.toNat h
  rwa [BitVec.toNat_and, show (3#32).toNat = 2 ^ 2 - 1 by decide, Nat.and_two_pow_sub_one_eq_mod] at hn

/-- An aligned access ends at or below 2^32 (R12, R81). -/
theorem alignedMemAccess_end {a : Word} {width : Nat} (h : alignedMemAccess a.toNat width = true) :
    a.toNat + width ≤ 2 ^ addrW := by
  have ha := a.isLt
  obtain ⟨rfl | rfl | rfl, hmod⟩ := alignedMemAccess_iff.mp h <;> simp only [addrW] <;> omega

/-- MUL's work step is one iteration, while k is below its bound (R243). -/
theorem mulWork_some {s t : State} (h : mulWork s = some t) : s.k < iterations s.grade ∧ t = mulIteration s := by
  unfold mulWork at h
  split at h
  · exact ⟨‹_›, (Option.some.inj h).symm⟩
  · cases h

theorem finishOf_pending (s : State) (i : Instr) : (finishOf i s).pending = s.pending := by
  cases i <;> rfl

namespace State.Coherent

/-- P is empty unless a TABLE that passed its check runs (R52). -/
theorem pending_empty {s : State} (h : s.Coherent) (hn : ¬(s.phase = .run .table ∧ s.pf = false)) : s.pending = .empty := by
  cases hp : s.pending with
  | empty => rfl
  | grid n written =>
    obtain ⟨hphase, hpf, -⟩ := h.pending_grade n written hp
    exact absurd ⟨hphase, hpf⟩ hn

/-- A pending cell lies in the grid of the latched grade (R52). -/
theorem pending_mem_lt {s : State} (h : s.Coherent) {r c : Nat} (hm : s.pending.mem r c = true) :
    r < 2 ^ s.grade ∧ c < 2 ^ s.grade := by
  cases hq : s.pending with
  | empty => simp [hq, CellSet.mem] at hm
  | grid n written =>
    obtain ⟨-, -, rfl⟩ := h.pending_grade n written hq
    obtain ⟨hr, hc, -⟩ := CellSet.mem_grid.mp (hq ▸ hm)
    exact ⟨hr, hc⟩

theorem pending_empty_of_idle {s : State} (h : s.Coherent) (hidle : s.phase = .idle) : s.pending = .empty :=
  h.pending_empty (by simp [hidle])

/-- Memory and the parameters outlive a reset event, and the rest is as at launch (R291). -/
theorem platformReset {s : State} (h : s.Coherent) : (platformReset s).Coherent :=
  { launch_coherent s.cfg with mem_wf := h.mem_wf }

/-- A completion with P empty: BUSY falls with the phase, so what holds only while busy is free. -/
theorem complete {s : State} (h : s.Coherent) (hempty : s.pending = .empty) : (complete s).Coherent :=
  { h with
    pf_idle := fun _ => rfl
    unchecked := fun hc => by
      obtain ⟨hpf, hperr⟩ := h.unchecked hc
      exact ⟨rfl, by simp [hpf, hperr]⟩
    done_busy := fun hb => by cases hb
    latches_busy := fun _ hp => by cases hp
    pending_grade := fun n written hp => by simp [hempty] at hp
    shown_admitted := fun hp => by cases hp }

/-- Acceptance before the command's own working registers: the latches hold the registers' values (R241). -/
theorem accepted {s : State} (h : s.Coherent) (hidle : s.phase = .idle) (i : Instr) : (Claims.accepted i s).Coherent :=
  { h with
    pf_idle := fun _ => rfl
    unchecked := fun hc => ⟨rfl, (h.unchecked hc).2⟩
    done_busy := fun _ => rfl
    latches_busy := fun op hp => ⟨congrArg opcode (Phase.run.inj hp), rfl, rfl, rfl, rfl, rfl⟩
    pending_grade := fun n written hp => by
      have hempty : (Claims.accepted i s).pending = .empty := h.pending_empty_of_idle hidle
      simp [hempty] at hp
    shown_rises := List.Pairwise.nil
    shown_admitted := fun _ _ x hx => by cases hx }

/-- The working registers a command sets up. -/
theorem initOf {s : State} {i : Instr} (h : s.Coherent) (hrun : s.phase = .run i) (hpf : s.pf = false) :
    (initOf i s).Coherent := by
  cases i with
  | nop | add | sub | irred => exact h
  | mul => exact { h with k_le := Nat.zero_le _ }
  | table =>
    exact { h with
      pending_wf := fullGrid_wf _
      pending_grade := fun n written hp => ⟨hrun, hpf, ((CellSet.grid.injEq ..).mp hp).1.symm⟩ }

theorem accept {s : State} (h : s.Coherent) (hidle : s.phase = .idle) (i : Instr) :
    (accept i (Machine.initOf i) s).Coherent := by
  have hacc := h.accepted hidle i
  rcases accept_cases i (Machine.initOf i) s with ⟨hcheck, -, he⟩ | ⟨-, he⟩
  · have hempty : (Claims.accepted i s).pending = .empty := h.pending_empty_of_idle hidle
    rw [he]
    exact { hacc with
      pf_idle := fun hp => by cases hp
      unchecked := fun hc => absurd (hcheck.symm.trans hc) (by decide)
      pending_grade := fun n written hp => absurd (hempty.symm.trans hp) (by simp)
      shown_admitted := fun _ _ x hx => by cases hx }
  · rw [he]
    exact hacc.initOf rfl rfl

/-- The write of a pending cell at an admitted address, which leaves P (R214). -/
theorem writeCell {s : State} (h : s.Coherent) {r c : Nat} (hm : s.pending.mem r c = true) (v : Word)
    (ha : admitted s.cfg (cellAddr s.tableBase s.grade r c) = true) :
    ({ s with
      mem := s.mem.writeLE (cellAddr s.tableBase s.grade r c) 4 v
      pending := s.pending.remove r c } : State).Coherent :=
  { h with
    mem_wf := Memory.wf_writeLE _ h.mem_wf (admitted_lt ha)
    pending_wf := CellSet.wf_remove h.pending_wf hm
    pending_grade := fun n written hp => by
      cases hq : s.pending with
      | empty => simp [hq, CellSet.mem] at hm
      | grid m w =>
        obtain rfl : n = m := CellSet.remove_grid ((congrArg (CellSet.remove · r c) hq).symm.trans hp)
        exact h.pending_grade n w hq }

/-- BERR empties P and completes the TABLE (R216). -/
theorem raise_berr {s : State} (h : s.Coherent) : (raise .berr s).Coherent := by
  have hended : ({ s with status := { s.status with berr := true }, pending := .empty } : State).Coherent :=
    { h with
      pending_wf := trivial
      pending_grade := fun _ _ hp => by cases hp }
  exact hended.complete rfl

theorem workOf {s t : State} {i : Instr} (h : s.Coherent) (hw : workOf i s = some t) : t.Coherent := by
  cases i with
  | nop | add | sub | irred => cases hw
  | mul =>
    obtain ⟨hk, rfl⟩ := mulWork_some hw
    exact { h with k_le := hk.trans_le (iterations_le _) }
  | table =>
    obtain ⟨r, c, -, hm, ⟨ha, rfl⟩ | ⟨-, rfl⟩⟩ := tableWork_cases h.pending_wf hw
    · exact h.writeCell hm _ ha
    · exact h.raise_berr

/-- A command that has no work step left has no pending cell. -/
theorem pending_empty_of_no_work {s : State} {i : Instr} (h : s.Coherent) (hrun : s.phase = .run i)
    (hw : Machine.workOf i s = none) : s.pending = .empty := by
  cases i with
  | nop | add | sub | irred | mul => exact h.pending_empty (by simp [hrun])
  | table => exact tableWork_none.mp hw

theorem finishOf {s : State} (h : s.Coherent) (i : Instr) : (finishOf i s).Coherent := by
  cases i with
  | nop | table => exact h
  | add | sub | mul | irred => exact { h with }

theorem blockStep {s : State} {i : Instr} (h : s.Coherent) (hrun : s.phase = .run i) :
    (blockStep (Machine.workOf i) (Machine.finishOf i) s).Coherent := by
  rcases blockStep_cases (Machine.workOf i) (Machine.finishOf i) s with ⟨hpf, he⟩ | ⟨-, t, hw, he⟩ | ⟨-, hw, he⟩
  · rw [he]
    exact h.complete (h.pending_empty (by simp [hpf]))
  · rw [he]
    exact h.workOf hw
  · rw [he]
    exact (h.finishOf i).complete ((finishOf_pending s i).trans (h.pending_empty_of_no_work hrun hw))

/-- A write of an operand register while idle, when no latch has to agree with it. -/
theorem writeOperand {s : State} (h : s.Coherent) (hidle : s.phase = .idle) (f g ip n : Word) {tbase : Word}
    (haligned : tbase.toNat % 4 = 0) : (withOperands f g ip n tbase s).Coherent :=
  { h with
    tbase_aligned := haligned
    latches_busy := fun op hp => absurd (hidle.symm.trans hp) (by simp) }

theorem raise_ill {s : State} (h : s.Coherent) (hidle : s.phase = .idle) : (raise .ill s).Coherent :=
  { h with done_busy := fun hb => absurd hidle (busy_eq_true.mp hb) }

theorem clearBits {s : State} (h : s.Coherent) (v : Word) :
    ({ s with status := s.status.clearBits v } : State).Coherent :=
  { h with
    unchecked := fun hc => ⟨(h.unchecked hc).1, by simp [(h.unchecked hc).2]⟩
    done_busy := fun hb => by simp [h.done_busy hb] }

/-- A racing read that shows the new word of an admitted cell (R88). -/
theorem showCell {s : State} (h : s.Coherent) {i : Nat} (hi : i < 4 ^ s.grade)
    (ha : admitted s.cfg (s.tableBase + 4 * i) = true) :
    ({ s with shown := insertSorted i s.shown } : State).Coherent :=
  { h with
    shown_rises := pairwise_insertSorted h.shown_rises
    shown_admitted := fun hp hpf x hx => by
      rcases mem_insertSorted.mp hx with rfl | hx
      · exact ⟨hi, ha⟩
      · exact h.shown_admitted hp hpf x hx }

end State.Coherent

theorem Move.coherent {s t : State} (m : Move s t) (hs : s.Coherent) : t.Coherent := by
  cases m with
  | reset u hu _ ht => exact ht ▸ (hu.coherent hs).platformReset
  | block u hu i running ht => exact ht ▸ (hu.coherent hs).blockStep (hu.phase.trans running)
  | accept u hu _ i idle ht => exact ht ▸ (hu.coherent hs).accept (hu.phase.trans idle) i
  | illegal u hu _ idle ht => exact ht ▸ (hu.coherent hs).raise_ill (hu.phase.trans idle)
  | dropped u hu _ _ ht => exact ht ▸ { hu.coherent hs with }
  | clear u hu v _ ht => exact ht ▸ (hu.coherent hs).clearBits v
  | writeF u hu _ idle v ht
  | writeG u hu _ idle v ht
  | writeIp u hu _ idle v ht
  | writeN u hu _ idle v ht =>
    subst ht
    exact (hu.coherent hs).writeOperand (hu.phase.trans idle) _ _ _ _ (hu.coherent hs).tbase_aligned
  | writeTbase u hu _ idle v ht =>
    subst ht
    exact (hu.coherent hs).writeOperand (hu.phase.trans idle) _ _ _ _ (tbaseStored_aligned v)
  | memWrite u hu _ a width v aligned _ ht =>
    have hu' := hu.coherent hs
    exact ht ▸ { hu' with mem_wf := Memory.wf_writeLE v hu'.mem_wf (alignedMemAccess_end aligned) }
  | shows u hu _ i _ _ cell adm ht =>
    obtain ⟨_, _, _, _, _, rfl⟩ := hu.exists_eq
    exact ht ▸ (hu.coherent hs).showCell cell adm
  | quiet hu => exact hu.coherent hs

end Sys2Proof.Machine

namespace Sys2Proof.Claims

open Sys2Proof Sys2Proof.Machine

/-- Settles O40: after reset the block is idle, so no running command has to be on its way. -/
theorem resetMeetsTheInvariants : Obligations.ResetMeetsTheInvariants :=
  ⟨launch_coherent _, fun hp => (by cases hp), fun hp => (by cases hp)⟩

/-- Settles O41: each kind of move keeps the relations. -/
theorem stepKeepsCoherence : Obligations.StepKeepsCoherence :=
  fun _ _ hs h => (step_move h).coherent hs

end Sys2Proof.Claims
end

section
/-! Proofs about a running TABLE: each transition keeps every cell pending and old, or written and admitted. -/

namespace Sys2Proof.Machine

/-- How far one cell of the table has come: still to be written, it holds the bytes of acceptance; else it is admitted and
holds its value. -/
def State.CellProgress (s : State) (r c : Nat) : Prop :=
  if s.pending.mem r c then
    ∀ j, j < 4 → s.mem.read (cellAddr s.tableBase s.grade r c + j)
      = s.memAtAccept.read (cellAddr s.tableBase s.grade r c + j)
  else admitted s.cfg (cellAddr s.tableBase s.grade r c) = true ∧
    s.mem.readLE (cellAddr s.tableBase s.grade r c) 4 = some (tableCell s.grade r c)

theorem State.tableProgress_iff {s : State} : s.TableProgress ↔ (s.phase = .run .table → s.pf = false →
    s.tip = ipRom s.grade ∧ ∀ r c, r < 2 ^ s.grade → c < 2 ^ s.grade → s.CellProgress r c) := Iff.rfl

/-- A change of memory and of P that spares a cell spares its progress. -/
theorem State.CellProgress.congr {s : State} {r c : Nat} (h : s.CellProgress r c) {m : Memory} {p : CellSet}
    (hp : p.mem r c = s.pending.mem r c)
    (hm : ∀ j, j < 4 → m.read (cellAddr s.tableBase s.grade r c + j)
      = s.mem.read (cellAddr s.tableBase s.grade r c + j)) :
    ({ s with mem := m, pending := p } : State).CellProgress r c := by
  change if p.mem r c then _ else _
  change if s.pending.mem r c then _ else _ at h
  rw [hp]
  split at h
  · rename_i hmem
    rw [if_pos hmem]
    exact fun j hj => (hm j hj).trans (h j hj)
  · rename_i hmem
    rw [if_neg hmem]
    exact ⟨h.1, (Memory.readLE_congr hm).trans h.2⟩

/-- A cell that has left P and holds its value at an admitted address is done. -/
theorem State.cellProgress_written {s : State} {r c : Nat} {m : Memory} {p : CellSet} (hp : ¬ p.mem r c = true)
    (ha : admitted s.cfg (cellAddr s.tableBase s.grade r c) = true)
    (hm : m.readLE (cellAddr s.tableBase s.grade r c) 4 = some (tableCell s.grade r c)) :
    ({ s with mem := m, pending := p } : State).CellProgress r c := by
  rw [State.CellProgress, if_neg hp]
  exact ⟨ha, hm⟩

namespace State.TableProgress

/-- A change of memory and of P keeps the table's progress when it keeps that of each cell. -/
theorem of_cells {s : State} (h : s.TableProgress) {m : Memory} {p : CellSet}
    (hcells : s.phase = .run .table → s.tip = ipRom s.grade → ∀ r c, r < 2 ^ s.grade → c < 2 ^ s.grade →
      s.CellProgress r c → ({ s with mem := m, pending := p } : State).CellProgress r c) :
    ({ s with mem := m, pending := p } : State).TableProgress := fun hp hpf =>
  have ⟨htip, hold⟩ := State.tableProgress_iff.mp h hp hpf
  ⟨htip, fun r c hr hc => hcells hp htip r c hr hc (hold r c hr hc)⟩

theorem of_not_running {s : State} (h : s.phase ≠ .run .table) : s.TableProgress := fun hp => absurd hp h

theorem of_idle {s : State} (h : s.phase = .idle) : s.TableProgress := of_not_running (by simp [h])

/-- Just after acceptance every cell is pending and memory is that of acceptance (R212). -/
theorem tableInit {s : State} (h : s.mem = s.memAtAccept) : (tableInit s).TableProgress := by
  refine State.tableProgress_iff.mpr fun _ _ => ⟨rfl, fun r c hr hc => ?_⟩
  have hm : (Machine.tableInit s).pending.mem r c = true := mem_fullGrid.mpr ⟨hr, hc⟩
  rw [State.CellProgress, if_pos hm]
  exact fun j _ => congrArg (Memory.read · _) h

theorem accept (s : State) (i : Instr) : (accept i (initOf i) s).TableProgress := by
  rcases accept_cases i (initOf i) s with ⟨-, -, he⟩ | ⟨-, he⟩
  · rw [he]
    exact fun _ hpf => by cases hpf
  · rw [he]
    cases i with
    | nop | add | sub | mul | irred => exact of_not_running (by simp [initOf])
    | table => exact tableInit rfl

/-- The cell that was just written holds its value, and every other cell is as it was (R214, R216). -/
theorem writeCell {s : State} (h : s.TableProgress) (hs : s.Coherent) {r c : Nat} (hm : s.pending.mem r c = true)
    (ha : admitted s.cfg (cellAddr s.tableBase s.grade r c) = true) :
    ({ s with
      mem := s.mem.writeLE (cellAddr s.tableBase s.grade r c) 4 (cellValue s.tip s.grade r c)
      pending := s.pending.remove r c } : State).TableProgress := by
  refine h.of_cells fun _ htip r' c' _ hc' hcell => ?_
  by_cases hsame : r' = r ∧ c' = c
  · obtain ⟨rfl, rfl⟩ := hsame
    have hgone : ¬ (s.pending.remove r' c').mem r' c' = true := fun hmem =>
      ((CellSet.mem_remove hs.pending_wf hm).mp hmem).2 ⟨rfl, rfl⟩
    refine State.cellProgress_written hgone ha ?_
    rw [Memory.readLE_writeLE_word, htip, tableCell]
  · refine hcell.congr ?_ fun j hj => ?_
    · rw [Bool.eq_iff_iff, CellSet.mem_remove hs.pending_wf hm]
      exact and_iff_left hsame
    · have hdisj := cellAddr_disjoint (b := s.tableBase) hc' (hs.pending_mem_lt hm).2 hsame
      exact Memory.read_writeLE_other _ _ _ _ (by omega)

theorem workOf {s t : State} {i : Instr} (h : s.TableProgress) (hs : s.Coherent) (hrun : s.phase = .run i)
    (hw : workOf i s = some t) : t.TableProgress := by
  cases i with
  | nop | add | sub | irred => cases hw
  | mul =>
    obtain ⟨-, rfl⟩ := mulWork_some hw
    exact of_not_running (by simp [hrun])
  | table =>
    obtain ⟨r, c, -, hm, ⟨ha, rfl⟩ | ⟨-, rfl⟩⟩ := tableWork_cases hs.pending_wf hw
    · exact h.writeCell hs hm ha
    · exact of_idle rfl

theorem blockStep {s : State} {i : Instr} (h : s.TableProgress) (hs : s.Coherent) (hrun : s.phase = .run i) :
    (blockStep (Machine.workOf i) (finishOf i) s).TableProgress := by
  rcases blockStep_cases (Machine.workOf i) (finishOf i) s with ⟨-, he⟩ | ⟨-, t, hw, he⟩ | ⟨-, -, he⟩
  · exact he ▸ of_idle rfl
  · exact he ▸ h.workOf hs hrun hw
  · exact he ▸ of_idle rfl

/-- A host write that touches no byte of the running table (R89). -/
theorem hostStore {s : State} (h : s.TableProgress) {a width : Nat} (v : Word)
    (outside : s.phase = .run .table → ∀ i, i < width → inTable s (a + i) = false) :
    ({ s with mem := s.mem.writeLE a width v } : State).TableProgress := by
  refine h.of_cells fun hp _ r c hr hc hcell => hcell.congr rfl fun j hj => Memory.read_writeLE_other _ _ _ _ ?_
  by_contra hin
  have htable := cellAddr_inTable hr hc hj
  have hout := outside hp (cellAddr s.tableBase s.grade r c + j - a) (by omega)
  rw [Nat.add_sub_cancel' (by omega), htable] at hout
  cases hout

end State.TableProgress

theorem SameBlock.tableProgress {s u : State} (hu : SameBlock s u) (h : s.TableProgress) : u.TableProgress := by
  obtain ⟨_, _, _, _, _, rfl⟩ := hu.exists_eq
  exact h

theorem Move.tableProgress {s t : State} (m : Move s t) (hs : s.Coherent) (h : s.TableProgress) : t.TableProgress := by
  cases m with
  | reset u hu _ ht => exact ht ▸ .of_idle rfl
  | block u hu i running ht => exact ht ▸ (hu.tableProgress h).blockStep (hu.coherent hs) (hu.phase.trans running)
  | accept u hu _ i _ ht => exact ht ▸ .accept u i
  | illegal u hu _ _ ht
  | dropped u hu _ _ ht
  | clear u hu _ _ ht
  | writeF u hu _ _ _ ht
  | writeG u hu _ _ _ ht
  | writeIp u hu _ _ _ ht
  | writeN u hu _ _ _ ht
  | writeTbase u hu _ _ _ ht
  | shows u hu _ _ _ _ _ _ ht =>
    have hu' : u.TableProgress := hu.tableProgress h
    subst ht
    exact hu'
  | memWrite u hu _ a width v _ outside ht =>
    obtain ⟨_, _, _, _, _, rfl⟩ := hu.exists_eq
    exact ht ▸ (hu.tableProgress h).hostStore v outside
  | quiet hu => exact hu.tableProgress h

end Sys2Proof.Machine

namespace Sys2Proof.Claims

open Sys2Proof Sys2Proof.Machine

/-- Settles O43: each kind of move keeps each cell of a running TABLE old and pending, or written and admitted. -/
theorem stepKeepsTableProgress : Obligations.StepKeepsTableProgress :=
  fun _ _ hs hp h => (step_move h).tableProgress hs hp

end Sys2Proof.Claims
end

section
/-! Proofs about the host's window accesses: a turn of the host is its next access, and each access has its equations. -/

namespace Sys2Proof.Machine

/-- A scheduled turn of the host takes its next access (R72, R79). -/
theorem step_hostAccess {s : State} {op : HostOp} {ops : List HostOp} {d : Draw} {rest : List Turn}
    (hs : s.sched = .host d :: rest) (hh : s.host = op :: ops) :
    step s = hostAccess op { s with host := ops, sched := rest, draw := d } := by
  simp only [step, nextTurn, hs, takeTurn, hostTurn, hh]

/-- A write of a whole word of the window reaches the register at its offset (R75). -/
theorem hostAccess_write {off : Nat} (v : Word) (s : State) (ha : off % 4 = 0) (hw : off ≤ 0x3C) :
    hostAccess (.write off 4 v) s = hostWrite (regAt off) v s :=
  windowAccess_whole (act := fun r => hostWrite r v s) ha hw

/-- A read of a whole word of the window returns the register at its offset (R77). -/
theorem hostAccess_read {off : Nat} (s : State) (ha : off % 4 = 0) (hw : off ≤ 0x3C) :
    hostAccess (.read off 4) s = .next (logRead (hostRead (regAt off) s) s) :=
  windowAccess_whole (act := fun r => .next (logRead (hostRead r s) s)) ha hw

theorem unlessBusy_idle {act : State → Host.Outcome State Fault Refusal} {s : State} (h : s.phase = .idle) :
    unlessBusy act s = act s := if_neg (by simp [h])

theorem unlessBusy_running {act : State → Host.Outcome State Fault Refusal} {s : State} (h : s.phase ≠ .idle) :
    unlessBusy act s = .next (raise .bsyerr s) := if_pos (busy_eq_true.mpr h)

/-! What a write of each register does (R75, R76). -/

/-- Writes of these registers are dropped while busy (R76). -/
theorem hostWrite_running {r : Reg} (v : Word) {s : State} (hr : r ∈ [.cmd, .f, .g, .ip, .n, .tbase])
    (h : s.phase ≠ .idle) : hostWrite (some r) v s = .next (raise .bsyerr s) := by
  cases r with
  | cmd | f | g | ip | n | tbase => simp only [hostWrite, unlessBusy_running h]
  | status | result | caps => simp at hr

section
variable {s : State} (v : Word) (h : s.phase = .idle)
include h

theorem hostWrite_f_idle : hostWrite (some .f) v s = .next { s with f := v } :=
  unlessBusy_idle (act := fun s => .next { s with f := v }) h

theorem hostWrite_g_idle : hostWrite (some .g) v s = .next { s with g := v } :=
  unlessBusy_idle (act := fun s => .next { s with g := v }) h

theorem hostWrite_ip_idle : hostWrite (some .ip) v s = .next { s with ip := v } :=
  unlessBusy_idle (act := fun s => .next { s with ip := v }) h

theorem hostWrite_n_idle : hostWrite (some .n) v s = .next { s with n := v } :=
  unlessBusy_idle (act := fun s => .next { s with n := v }) h

theorem hostWrite_tbase_idle : hostWrite (some .tbase) v s = .next { s with tbase := tbaseStored v } :=
  unlessBusy_idle (act := fun s => .next { s with tbase := tbaseStored v }) h

end

/-- RESULT, CAPS and the reserved offsets take no write (R74, R75). -/
theorem hostWrite_ignored {r : Option Reg} (v : Word) (s : State) (hr : r ∈ [some .result, some .caps, none]) :
    hostWrite r v s = .next s := by
  simp only [List.mem_cons, List.not_mem_nil, or_false] at hr
  rcases hr with rfl | rfl | rfl <;> rfl

/-! Which register stands at an offset (R71). -/

/-- The offsets whose writes are dropped while busy (R76). -/
theorem regAt_droppedWhileBusy : ∀ off ∈ [0x00, 0x08, 0x0C, 0x10, 0x14, 0x1C],
    off % 4 = 0 ∧ off ≤ 0x3C ∧ ∃ r ∈ [Reg.cmd, .f, .g, .ip, .n, .tbase], regAt off = some r := by decide

/-- The offsets whose writes are ignored (R74, R75). -/
theorem regAt_ignored : ∀ off ∈ [0x18, 0x20, 0x24, 0x28, 0x2C, 0x30, 0x34, 0x38, 0x3C],
    off % 4 = 0 ∧ off ≤ 0x3C ∧ regAt off ∈ [some Reg.result, some .caps, none] := by decide

/-- No register stands at the offsets above 0x20 (R74). -/
theorem regAt_reserved {off : Nat} (h : 0x24 ≤ off) : regAt off = none := by
  obtain ⟨k, rfl⟩ := Nat.exists_eq_add_of_le' h
  simp [regAt]

/-- The six bits of the STATUS word (R39). -/
theorem getLsbD_statusWord_low : ∀ busy done ill bsyerr perr berr : Bool,
    let v := statusWord busy ⟨done, ill, bsyerr, perr, berr⟩
    v.getLsbD 0 = busy ∧ v.getLsbD 1 = done ∧ v.getLsbD 2 = ill ∧ v.getLsbD 3 = bsyerr ∧ v.getLsbD 4 = perr ∧
      v.getLsbD 5 = berr := by decide

/-- The reserved bits of the STATUS word read as 0 (R46). -/
theorem getLsbD_statusWord_high (busy : Bool) (st : Status) {b : Nat} (h : 6 ≤ b) :
    (statusWord busy st).getLsbD b = false := by
  rw [statusWord, BitVec.getLsbD_setWidth, BitVec.getLsbD_of_ge _ _ h, Bool.and_false]

/-- Bit by bit, the STATUS word is BUSY, the five stored bits and zeros (R39, R46). -/
theorem getLsbD_statusWord (busy : Bool) (st : Status) :
    let v := statusWord busy st
    v.getLsbD 0 = busy ∧ v.getLsbD 1 = st.done ∧ v.getLsbD 2 = st.ill ∧ v.getLsbD 3 = st.bsyerr ∧
      v.getLsbD 4 = st.perr ∧ v.getLsbD 5 = st.berr ∧ ∀ b, 6 ≤ b → v.getLsbD b = false := by
  obtain ⟨h0, h1, h2, h3, h4, h5⟩ := getLsbD_statusWord_low busy st.done st.ill st.bsyerr st.perr st.berr
  exact ⟨h0, h1, h2, h3, h4, h5, fun _ h => getLsbD_statusWord_high busy st h⟩

/-- CAPS has one value for each value of CHECK_PRECOND (R47). -/
theorem capsWord_eq (c : Config) : capsWord c = if c.checkPrecond then 0x00011E20#32 else 0x00001E20#32 := by
  unfold capsWord
  cases c.checkPrecond <;> rfl

end Sys2Proof.Machine

namespace Sys2Proof.Claims

open Sys2Proof Sys2Proof.Machine

/-- Settles O27: the width and the alignment are checked before anything else. -/
theorem partialWindowAccessIsRefused : Obligations.PartialWindowAccessIsRefused := by
  intro s off width v ops d rest hs hbad hh
  rcases hh with hh | hh
  · exact (step_hostAccess hs hh).trans (windowAccess_partial (act := fun r => hostWrite r v _) hbad)
  · exact (step_hostAccess hs hh).trans (windowAccess_partial (act := fun r => .next (logRead (hostRead r _) _)) hbad)

/-- Settles O23: the six offsets are those of registers whose writes are dropped while busy. -/
theorem writesWhileBusyAreDropped : Obligations.WritesWhileBusyAreDropped := by
  intro s i off v ops d rest hrun hoff hh hs
  obtain ⟨ha, hw, r, hr, hreg⟩ := regAt_droppedWhileBusy off hoff
  rw [step_hostAccess hs hh, hostAccess_write v _ ha hw, hreg]
  exact hostWrite_running v hr (by simp [hrun])

/-- Settles O24: at each offset the step is a write of the register there, which an operand register takes while idle. -/
theorem hostWritesHaveTheListedEffect : Obligations.HostWritesHaveTheListedEffect := by
  intro s off v ops d rest hh hs u
  have hwrite : off % 4 = 0 → off ≤ 0x3C → step s = hostWrite (regAt off) v u := fun ha hw =>
    (step_hostAccess hs hh).trans (hostAccess_write v _ ha hw)
  refine ⟨?_, ?_, ?_, ?_, ?_, ?_, fun hoff => ?_⟩
  · rintro rfl
    exact hwrite rfl (by decide)
  · rintro rfl hidle
    exact (hwrite rfl (by decide)).trans (hostWrite_f_idle v hidle)
  · rintro rfl hidle
    exact (hwrite rfl (by decide)).trans (hostWrite_g_idle v hidle)
  · rintro rfl hidle
    exact (hwrite rfl (by decide)).trans (hostWrite_ip_idle v hidle)
  · rintro rfl hidle
    exact (hwrite rfl (by decide)).trans (hostWrite_n_idle v hidle)
  · rintro rfl hidle
    exact (hwrite rfl (by decide)).trans (hostWrite_tbase_idle v hidle)
  · obtain ⟨ha, hw, hreg⟩ := regAt_ignored off hoff
    exact (hwrite ha hw).trans (hostWrite_ignored v u hreg)

/-- Settles O25: the value is that of the register at the offset. -/
theorem hostReadsReturnTheListedValue : Obligations.HostReadsReturnTheListedValue := by
  intro s off ops d rest hh hs ha hw
  refine ⟨hostRead (regAt off) s, ?_, ?_, ?_, ?_, ?_, ?_, ?_, ?_, ?_, ?_, fun hoff => ?_⟩
  case refine_1 =>
    rw [step_hostAccess hs hh, hostAccess_read _ ha hw]
    cases regAt off with
    | none => rfl
    | some r => cases r <;> rfl
  case refine_3 =>
    rintro rfl
    exact getLsbD_statusWord s.busy s.status
  case refine_10 =>
    rintro rfl
    exact capsWord_eq s.cfg
  case refine_11 =>
    rw [regAt_reserved hoff]
    rfl
  all_goals
    rintro rfl
    rfl

end Sys2Proof.Claims
end

section
/-! Proofs about memory as the host reads and writes it: little-endian bytes, racing reads, and refused stores. -/

namespace Sys2Proof.Machine

/-- A read of known bytes returns them with the lowest address in the lowest bits (R81). -/
theorem Memory.readLE_bytes {m : Memory} {a width : Nat} {b : Nat → Byte} (hw : width ≤ 4)
    (h : ∀ j, j < width → m.read (a + j) = some (b j)) :
    ∃ v, m.readLE a width = some v ∧
      ∀ j k, k < 8 → v.getLsbD (8 * j + k) = (decide (j < width) && (b j).getLsbD k) := by
  induction width generalizing a b with
  | zero => exact ⟨0, rfl, by simp⟩
  | succ w ih =>
    obtain ⟨hi, hread, hbits⟩ := ih (a := a + 1) (b := fun j => b (j + 1)) (by omega) fun j hj => by
      rw [Nat.add_right_comm a 1 j]
      exact h (j + 1) (by omega)
    refine ⟨hi <<< 8 ||| (b 0).setWidth 32, ?_, fun j k hk => ?_⟩
    · have hlo : m.read a = some (b 0) := h 0 (by omega)
      simp only [readLE, hlo, hread]
    · rw [BitVec.getLsbD_or, BitVec.getLsbD_shiftLeft, BitVec.getLsbD_setWidth]
      cases j with
      | zero => simp [hk, show k < 32 by omega]
      | succ j =>
        rw [BitVec.getLsbD_of_ge (b 0) _ (by omega), show 8 * (j + 1) + k - 8 = 8 * j + k by omega, hbits j k hk]
        by_cases hj : j < w
        · simp [hj, show 8 * (j + 1) + k < 32 by omega, show ¬ 8 * (j + 1) + k < 8 by omega]
        · simp [hj]

/-- The four bytes of a word are the word. -/
theorem extractBytes_word (v : Word) : extractBytes v 0 4 = v := by
  unfold extractBytes
  rw [show mask (8 * 4) = BitVec.allOnes 32 by decide, BitVec.and_allOnes]
  rfl

/-! The host's access by bus address, outside the window (Log 8). -/

/-- An aligned read outside the window that sees known bytes (R81, R88). -/
theorem hostAccess_readMem {a v : Word} {width : Nat} {s : State} (hout : windowOffset s.cfg a.toNat = none)
    (hal : alignedMemAccess a.toNat width = true) (h : bufferRead a.toNat width s = some v) :
    hostAccess (.readMem a width) s = .next (logRead v (markShown a.toNat s)) := by
  simp [hostAccess, hostReadMem, hout, hal, h]

/-- A store that touches the table of a running TABLE is refused (R89). -/
theorem hostAccess_writeMem_refused {a v : Word} {width j : Nat} {s : State} (hout : windowOffset s.cfg a.toNat = none)
    (hal : alignedMemAccess a.toNat width = true) (hrun : s.phase = .run .table) (hj : j < width)
    (hin : inTable s (a.toNat + j) = true) :
    hostAccess (.writeMem a width v) s = .refused .runningTableWrite := by
  have hany : (List.range width).any (fun i => inTable s (a.toNat + i)) = true :=
    List.any_eq_true.mpr ⟨j, List.mem_range.mpr hj, hin⟩
  simp only [hostAccess, hostWriteMem, hout, hal, hrun, hany, Bool.not_true, Bool.false_eq_true, if_false, and_self,
    if_true]

/-- Any other aligned store outside the window writes its bytes. -/
theorem hostAccess_writeMem {a v : Word} {width : Nat} {s : State} (hout : windowOffset s.cfg a.toNat = none)
    (hal : alignedMemAccess a.toNat width = true)
    (hfree : s.phase = .run .table → ∀ j, j < width → inTable s (a.toNat + j) = false) :
    hostAccess (.writeMem a width v) s = .next { s with mem := s.mem.writeLE a.toNat width v } := by
  have hno : ¬ (s.phase = .run .table ∧ (List.range width).any (fun i => inTable s (a.toNat + i)) = true) := by
    rintro ⟨hrun, hany⟩
    obtain ⟨j, hj, hin⟩ := List.any_eq_true.mp hany
    simp [hfree hrun j (List.mem_range.mp hj)] at hin
  simp only [hostAccess, hostWriteMem, hout, hal, Bool.not_true, Bool.false_eq_true, if_false, if_neg hno]

/-! What a read sees, racing or not (R86, R88). -/

theorem races_eq_false {s : State} (h : s.phase ≠ .run .table) (a : Nat) : races s a = false := by
  simp [races, h]

theorem shownWord_eq_none {s : State} {a : Nat} (h : races s a = false) : shownWord s a = none := by
  unfold shownWord
  cases s.draw with
  | old => rfl
  | new => exact if_neg (by simp [h])

/-- A read that is no race sees memory (R86). -/
theorem bufferRead_memory {s : State} {a : Nat} (h : races s a = false) (width : Nat) :
    bufferRead a width s = s.mem.readLE a width := by
  simp [bufferRead, shownWord_eq_none h, h]

theorem markShown_of_none {s : State} {a : Nat} (h : shownWord s a = none) : markShown a s = s := by
  simp [markShown, h]

theorem markShown_of_some {s : State} {a : Nat} {v : Word} (h : shownWord s a = some v) :
    markShown a s = { s with shown := insertSorted (cellNumberAt s a) s.shown } := by
  simp [markShown, h]

/-- The row and the column of a cell, from its number (R80). -/
theorem cellNumber_div_mod {n r c : Nat} (hc : c < 2 ^ n) :
    (r * 2 ^ n + c) / 2 ^ n = r ∧ (r * 2 ^ n + c) % 2 ^ n = c :=
  cellNumber_inj (Nat.mod_lt _ (Nat.two_pow_pos n)) hc (Nat.div_add_mod' _ _)

/-- The address of a cell leads back to the cell's number (R80). -/
theorem cellNumberAt_cellAddr (s : State) (r c : Nat) :
    cellNumberAt s (cellAddr s.tableBase s.grade r c) = r * 2 ^ s.grade + c := by
  simp [cellNumberAt, cellAddr]

theorem races_cellAddr {s : State} {r c : Nat} (hrun : s.phase = .run .table) (hr : r < 2 ^ s.grade)
    (hc : c < 2 ^ s.grade) : races s (cellAddr s.tableBase s.grade r c) = true := by
  simpa [races, hrun] using cellAddr_inTable (s := s) (j := 0) hr hc (by decide)

/-- TABLE writes a cell's value over it exactly where the platform admits the write (R83, R88). -/
theorem newWordAt_cellAddr {s : State} {r c : Nat} (hpf : s.pf = false) (hc : c < 2 ^ s.grade) :
    newWordAt s (cellAddr s.tableBase s.grade r c) =
      if admitted s.cfg (cellAddr s.tableBase s.grade r c) then some (cellValue s.tip s.grade r c) else none := by
  obtain ⟨hrow, hcol⟩ := cellNumber_div_mod (r := r) hc
  simp only [newWordAt, cellNumberAt_cellAddr, hrow, hcol, hpf, Bool.not_false, Bool.true_and]
  rfl

/-- A racing read of a cell shows its value exactly where its draw is new and the write is admitted (R88). -/
theorem shownWord_cellAddr {s : State} {r c : Nat} (hrun : s.phase = .run .table) (hpf : s.pf = false)
    (hr : r < 2 ^ s.grade) (hc : c < 2 ^ s.grade) :
    shownWord s (cellAddr s.tableBase s.grade r c) =
      if s.draw = .new ∧ admitted s.cfg (cellAddr s.tableBase s.grade r c) = true then
        some (cellValue s.tip s.grade r c) else none := by
  unfold shownWord
  cases s.draw with
  | old => simp
  | new => simp [races_cellAddr hrun hr hc, newWordAt_cellAddr hpf hc]

/-- The new word a racing read of a whole cell shows is the cell's own word (R88). -/
theorem bufferRead_cellAddr_new {s : State} {r c : Nat} {v : Word}
    (h : shownWord s (cellAddr s.tableBase s.grade r c) = some v) :
    bufferRead (cellAddr s.tableBase s.grade r c) 4 s = some v := by
  have hoff : (cellAddr s.tableBase s.grade r c - s.tableBase) % 4 = 0 := by simp [cellAddr]
  simp [bufferRead, h, hoff, extractBytes_word]

/-- A racing read that shows no new word sees the bytes of acceptance (R88). -/
theorem bufferRead_old {s : State} {a : Nat} (hrace : races s a = true) (h : shownWord s a = none) (width : Nat) :
    bufferRead a width s = s.memAtAccept.readLE a width := by
  simp [bufferRead, h, hrace]

/-- A racing read of a whole cell: its value where the draw is new and the write admitted, and then the cell is noted as
shown; else the word of acceptance (R88). -/
theorem hostAccess_readMem_cell {a old : Word} {r c : Nat} {s : State} (hrun : s.phase = .run .table)
    (hpf : s.pf = false) (hr : r < 2 ^ s.grade) (hc : c < 2 ^ s.grade)
    (haddr : a.toNat = cellAddr s.tableBase s.grade r c) (hout : windowOffset s.cfg a.toNat = none)
    (hal : alignedMemAccess a.toNat 4 = true) (hold : s.memAtAccept.readLE a.toNat 4 = some old) :
    hostAccess (.readMem a 4) s = .next { s with
      reads := (if s.draw = .new ∧ admitted s.cfg a.toNat = true then cellValue s.tip s.grade r c else old) :: s.reads
      shown := if s.draw = .new ∧ admitted s.cfg a.toNat = true then insertSorted (r * 2 ^ s.grade + c) s.shown
        else s.shown } := by
  have hshown := haddr ▸ shownWord_cellAddr hrun hpf hr hc
  by_cases hnew : s.draw = .new ∧ admitted s.cfg a.toNat = true
  · rw [if_pos hnew] at hshown
    have hread : bufferRead a.toNat 4 s = some (cellValue s.tip s.grade r c) :=
      haddr ▸ bufferRead_cellAddr_new (haddr ▸ hshown)
    rw [hostAccess_readMem hout hal hread, markShown_of_some hshown, if_pos hnew, if_pos hnew, haddr,
      cellNumberAt_cellAddr]
    rfl
  · rw [if_neg hnew] at hshown
    have hread := (bufferRead_old (haddr ▸ races_cellAddr hrun hr hc) hshown 4).trans hold
    rw [hostAccess_readMem hout hal hread, markShown_of_none hshown, if_neg hnew, if_neg hnew]
    rfl

/-- The latched base of a running command is aligned, and so is each cell (R37, R80). -/
theorem State.Coherent.cellAddr_aligned {s : State} (h : s.Coherent) {i : Instr} (hrun : s.phase = .run i) (r c : Nat) :
    cellAddr s.tableBase s.grade r c % 4 = 0 := by
  obtain ⟨-, -, -, -, -, hltb⟩ := h.latches_busy i hrun
  have hbase : s.tableBase % 4 = 0 := by
    rw [State.tableBase, hltb]
    exact h.tbase_aligned
  unfold cellAddr
  omega

end Sys2Proof.Machine

namespace Sys2Proof.Claims

open Sys2Proof Sys2Proof.Machine

/-- Settles O18: of four bytes in a row, none lies in the window exactly when the last is below it or the first above. -/
theorem admissionIsTheThreeChecks : Obligations.AdmissionIsTheThreeChecks := by
  intro cfg a
  rw [admitted_iff, addrW]
  refine and_congr_right fun _ => and_congr_right fun _ => ⟨fun hclear j hj => by omega, fun hbytes => ?_⟩
  have hfirst := hbytes 0 (by decide)
  have hlast := hbytes 3 (by decide)
  omega

/-- Settles O28: the touched byte is one of the table's, so the store is refused. -/
theorem writeToRunningTableIsRefused : Obligations.WriteToRunningTableIsRefused := by
  intro s a width v j ops d rest hs hh hrun hwidth hmod hout hj hlo hhi
  have hcells : 0 < 4 ^ s.ln.toNat := Nat.pow_pos (by decide)
  rw [step_hostAccess hs hh]
  exact hostAccess_writeMem_refused (windowOffset_outside hout) (alignedMemAccess_iff.mpr ⟨hwidth, hmod⟩) hrun hj
    (inTable_iff.mpr ⟨hlo, show _ < s.ltb.toNat + 4 * 4 ^ s.ln.toNat by omega⟩)

/-- Settles O31: the store is one little-endian write, which has its own bytes and spares the others. -/
theorem hostStoresWriteOnlyTheirBytes : Obligations.HostStoresWriteOnlyTheirBytes := by
  intro s a width v ops d rest hs hh hwidth hmod hout hfree
  refine ⟨s.mem.writeLE a.toNat width v, ?_, fun j hj => Memory.read_writeLE_byte _ _ _ _ hj,
    fun x hx => Memory.read_writeLE_other _ _ _ _ hx⟩
  rw [step_hostAccess hs hh]
  refine hostAccess_writeMem (windowOffset_outside hout) (alignedMemAccess_iff.mpr ⟨hwidth, hmod⟩) fun hrun j hj => ?_
  have hoff := hfree hrun j hj
  rw [← Bool.not_eq_true, inTable_iff]
  show ¬ (s.ltb.toNat ≤ _ ∧ _ < s.ltb.toNat + 4 * 4 ^ s.ln.toNat)
  omega

/-- Settles O30: a read that is no race sees memory, and its known bytes make up the value. -/
theorem memoryReadsAreLittleEndian : Obligations.MemoryReadsAreLittleEndian := by
  intro s a width b ops d rest hs hh hrun hwidth hmod hout hbytes
  obtain ⟨v, hread, hbits⟩ := Memory.readLE_bytes (by omega) hbytes
  refine ⟨v, ?_, hbits⟩
  have hrace : races { s with host := ops, sched := rest, draw := d } a.toNat = false := races_eq_false hrun _
  have haccess := hostAccess_readMem (s := { s with host := ops, sched := rest, draw := d }) (windowOffset_outside hout)
    (alignedMemAccess_iff.mpr ⟨hwidth, hmod⟩) ((bufferRead_memory hrace width).trans hread)
  rw [step_hostAccess hs hh, haccess, markShown_of_none (shownWord_eq_none hrace)]
  rfl

/-- Settles O29: the word shown is the cell's value exactly where the draw is new and the write admitted, and else the read
sees the word of acceptance. -/
theorem racingReadGivesOldOrNewWord : Obligations.RacingReadGivesOldOrNewWord := by
  intro s a r c old ops d rest hs hh hcoh hprog hrun hpf hr hc haddr hout hold
  obtain ⟨htip, -⟩ := hprog hrun hpf
  have hal : alignedMemAccess a.toNat 4 = true :=
    alignedMemAccess_iff.mpr ⟨by decide, haddr ▸ hcoh.cellAddr_aligned hrun r c⟩
  rw [step_hostAccess hs hh, tableCell, ← htip]
  exact hostAccess_readMem_cell hrun hpf hr hc haddr (windowOffset_outside hout) hal hold

end Sys2Proof.Claims
end

section
/-! Proofs about the block's own writes of memory: only the cell step of a running TABLE makes one. -/

namespace Sys2Proof.Machine

theorem blockTurn_idle {s : State} (h : s.phase = .idle) : blockTurn s = .next s := by
  simp only [blockTurn, h]

theorem blockTurn_running {s : State} {i : Instr} (h : s.phase = .run i) :
    blockTurn s = .next (blockStep (workOf i) (finishOf i) s) := by
  simp only [blockTurn, h, exec_running h]

/-- A scheduled turn of the block while idle does nothing (R276). -/
theorem step_block_idle {s : State} {p : Nat × Nat} {rest : List Turn} (hs : s.sched = .block p :: rest)
    (h : s.phase = .idle) : step s = .next { s with sched := rest, pick := p } := by
  simp only [step, nextTurn, hs, takeTurn]
  exact blockTurn_idle h

/-- A scheduled turn of the block is a block step of the running command, on the pick of the turn (R240, R243). -/
theorem step_block_running {s : State} {p : Nat × Nat} {rest : List Turn} {i : Instr} (hs : s.sched = .block p :: rest)
    (h : s.phase = .run i) :
    step s = .next (blockStep (workOf i) (finishOf i) { s with sched := rest, pick := p }) := by
  simp only [step, nextTurn, hs, takeTurn]
  exact blockTurn_running h

theorem finishOf_mem (s : State) (i : Instr) : (finishOf i s).mem = s.mem := by
  cases i <;> rfl

/-- A block step keeps memory, or it is the cell step of a running TABLE on a pending cell (R82, R214). -/
theorem blockStep_mem {s : State} (hw : s.pending.wf) (i : Instr) :
    (blockStep (workOf i) (finishOf i) s).mem = s.mem ∨
      (i = .table ∧ ∃ r c, s.pending.mem r c = true ∧
        blockStep (workOf i) (finishOf i) s = { s with
          mem := s.mem.writeLE (cellAddr s.tableBase s.grade r c) 4 (cellValue s.tip s.grade r c)
          pending := s.pending.remove r c }) := by
  rcases blockStep_cases (workOf i) (finishOf i) s with ⟨-, he⟩ | ⟨-, t, hwork, he⟩ | ⟨-, -, he⟩
  · rw [he]
    exact .inl (complete_mem s)
  · rw [he]
    cases i with
    | nop | add | sub | irred => cases hwork
    | mul =>
      obtain ⟨-, rfl⟩ := mulWork_some hwork
      exact .inl (mulIteration_mem s)
    | table =>
      obtain ⟨r, c, -, hm, ⟨-, ht⟩ | ⟨-, rfl⟩⟩ := tableWork_cases hw hwork
      · exact .inr ⟨rfl, r, c, hm, ht⟩
      · exact .inl (raise_berr_mem s)
  · rw [he, complete_mem]
    exact .inl (finishOf_mem s i)

/-- A cell step changes memory within its own aligned word, and its cell leaves P (R82, R84). -/
theorem cellStep_changes {s : State} (hs : s.Coherent) (hrun : s.phase = .run .table) {r c : Nat}
    (hm : s.pending.mem r c = true) (v : Word) :
    (s.pending.remove r c).mem r c = false ∧ cellAddr s.tableBase s.grade r c % 4 = 0 ∧
      ∀ x, (s.mem.writeLE (cellAddr s.tableBase s.grade r c) 4 v).read x ≠ s.mem.read x →
        cellAddr s.tableBase s.grade r c ≤ x ∧ x < cellAddr s.tableBase s.grade r c + 4 := by
  refine ⟨?_, hs.cellAddr_aligned hrun r c, fun x hx => ?_⟩
  · rw [← Bool.not_eq_true, CellSet.mem_remove hs.pending_wf hm]
    exact fun h => h.2 ⟨rfl, rfl⟩
  · by_contra hout
    exact hx (Memory.read_writeLE_other _ _ _ _ (by omega))

/-- A block step that ends a command changes no byte of memory (R215, R216). -/
theorem blockStep_mem_of_idle {s : State} {i : Instr} (hrun : s.phase = .run i)
    (hidle : (blockStep (workOf i) (finishOf i) s).phase = .idle) :
    (blockStep (workOf i) (finishOf i) s).mem = s.mem := by
  obtain ⟨-, -, -, ⟨hphase, -⟩ | ⟨-, -, -, -, hmem, -⟩⟩ := blockStep_effect i s
  · simp [hidle, hrun] at hphase
  · exact hmem

/-- When a block step ends a TABLE, no cell that a racing read has shown as new is still to be written (R88). -/
theorem shown_written_of_idle {s : State} (hs : s.Coherent) (hrun : s.phase = .run .table) (hpf : s.pf = false)
    (hidle : (blockStep (workOf .table) (finishOf .table) s).phase = .idle) :
    ∀ i ∈ s.shown, s.pending.mem (i / 2 ^ s.grade) (i % 2 ^ s.grade) = false := by
  rcases blockStep_cases (workOf .table) (finishOf .table) s with ⟨hpf', -⟩ | ⟨-, t, hwork, he⟩ | ⟨-, hwork, -⟩
  · simp [hpf] at hpf'
  · rw [he] at hidle
    obtain ⟨r, c, hcell, -, ⟨-, ht⟩ | ⟨hadm, -⟩⟩ := tableWork_cases hs.pending_wf hwork
    · simp [ht, hrun] at hidle
    · exact nextCell_refused hs hrun hpf hcell hadm
  · have hempty : s.pending = .empty := tableWork_none.mp hwork
    simp [hempty, CellSet.mem]

theorem State.CellProgress.old_or_value {s : State} {r c : Nat} (h : s.CellProgress r c) :
    (∀ j, j < 4 → s.mem.read (cellAddr s.tableBase s.grade r c + j)
      = s.memAtAccept.read (cellAddr s.tableBase s.grade r c + j)) ∨
    s.mem.readLE (cellAddr s.tableBase s.grade r c) 4 = some (tableCell s.grade r c) := by
  unfold State.CellProgress at h
  split at h
  · exact .inl h
  · exact .inr h.2

theorem State.CellProgress.value {s : State} {r c : Nat} (h : s.CellProgress r c) (hw : s.pending.mem r c = false) :
    s.mem.readLE (cellAddr s.tableBase s.grade r c) 4 = some (tableCell s.grade r c) := by
  rw [State.CellProgress, hw] at h
  exact h.2

end Sys2Proof.Machine

namespace Sys2Proof.Claims

open Sys2Proof Sys2Proof.Machine

/-- Settles O38: a block turn that changes memory is a cell step. -/
theorem blockWritesOnlyTheTablesCells : Obligations.BlockWritesOnlyTheTablesCells := by
  intro s t p rest hs hsched h hne
  cases hphase : s.phase with
  | idle =>
    cases (step_block_idle hsched hphase).symm.trans h
    exact absurd rfl hne
  | run i =>
    have hu : SameBlock s { s with sched := rest, pick := p } := rfl
    cases (step_block_running hsched hphase).symm.trans h
    rcases blockStep_mem (hu.coherent hs).pending_wf i with hmem | ⟨rfl, r, c, hm, ht⟩
    · exact absurd hmem hne
    · rw [ht]
      exact ⟨rfl, r, c, hm, cellStep_changes hs hphase hm _⟩

/-- Settles O46: the step that ends the TABLE leaves memory as it is, and comes only when each shown cell has been written. -/
theorem cellsAfterBerrAreOldOrNew : Obligations.CellsAfterBerrAreOldOrNew := by
  intro s t p rest hprog hrun hpf hsched h hidle
  have hu : SameBlock s { s with sched := rest, pick := p } := rfl
  cases (step_block_running hsched hrun).symm.trans h
  have hmem := blockStep_mem_of_idle (s := { s with sched := rest, pick := p }) hrun hidle
  obtain ⟨-, hcells⟩ := State.tableProgress_iff.mp hprog hrun hpf
  rw [hmem]
  refine ⟨fun r c hr hc => (hcells r c hr hc).old_or_value, fun hs r c hr hc hshown => (hcells r c hr hc).value ?_⟩
  obtain ⟨hrow, hcol⟩ := cellNumber_div_mod (r := r) hc
  have hwritten : s.pending.mem ((r * 2 ^ s.grade + c) / 2 ^ s.grade) ((r * 2 ^ s.grade + c) % 2 ^ s.grade) = false :=
    shown_written_of_idle (hu.coherent hs) hrun hpf hidle _ hshown
  rwa [hrow, hcol] at hwritten

end Sys2Proof.Claims
end

section
/-! Proofs about the encoding: RSVD and OP are the whole of a command word, so the decoder and the encoder are inverse to
each other, and what an illegal word written to CMD does. -/

namespace Sys2Proof

/-- A word is RSVD above OP (R111). -/
theorem rsvdField_append_opField (w : Word) : rsvdField w ++ opField w = w :=
  BitVec.extractLsb'_append_extractLsb'

/-- The value of a word by its two fields (R111). -/
theorem toNat_eq_fields (w : Word) : w.toNat = 16 * (rsvdField w).toNat + (opField w).toNat := by
  rw [rsvdField, opField, BitVec.extractLsb'_toNat, BitVec.extractLsb'_toNat]
  omega

theorem encoding_statement (i : Instr) : Laws.Encoding.Statement i := by
  cases i with
  | nop => exact Laws.Encoding.nop
  | add => exact Laws.Encoding.add
  | sub => exact Laws.Encoding.sub
  | mul => exact Laws.Encoding.mul
  | irred => exact Laws.Encoding.irred
  | table => exact Laws.Encoding.table

theorem decode_encode (i : Instr) : decode (encode i) = .command i := by
  obtain ⟨-, -, -, -, h⟩ := encoding_statement i
  exact h

/-- The words of the encoder, field by field (R111). -/
theorem eq_encode_iff {w : Word} {i : Instr} : w = encode i ↔ rsvdField w = 0 ∧ opField w = opcode i := by
  constructor
  · rintro rfl
    obtain ⟨-, hrsvd, hop, -, -⟩ := encoding_statement i
    exact ⟨hrsvd, hop⟩
  · rintro ⟨hrsvd, hop⟩
    rw [← rsvdField_append_opField w, hrsvd, hop]
    rfl

/-- The opcode map names a command at its own OP value and at no other (R115). -/
theorem opcodeMap_eq_some_iff {op : BitVec 4} {i : Instr} : opcodeMap op = some i ↔ op = opcode i := by
  revert op
  cases i <;> decide

/-- The opcode map has no command from 0x6 on (R115). -/
theorem opcodeMap_eq_none_iff {op : BitVec 4} : opcodeMap op = none ↔ 5 < op.toNat := by
  revert op
  decide

/-! The three results of `decode` (R116, R119). -/

theorem decode_of_rsvd {w : Word} (h : rsvdField w ≠ 0) : decode w = .illegal .reservedBits := if_neg h

theorem decode_of_no_command {w : Word} (h : rsvdField w = 0) (hop : opcodeMap (opField w) = none) :
    decode w = .illegal .reservedOpcode := by
  simp only [decode, if_pos h, hop]

theorem decode_of_command {w : Word} {i : Instr} (h : rsvdField w = 0) (hop : opcodeMap (opField w) = some i) :
    decode w = .command i := by
  simp only [decode, if_pos h, hop]

/-- A word is legal by both of its fields (R112). -/
theorem decode_eq_command_iff {w : Word} {i : Instr} :
    decode w = .command i ↔ rsvdField w = 0 ∧ opcodeMap (opField w) = some i := by
  refine ⟨fun hw => ?_, fun ⟨h, hop⟩ => decode_of_command h hop⟩
  by_cases h : rsvdField w = 0
  · cases hop : opcodeMap (opField w) with
    | none => cases (decode_of_no_command h hop).symm.trans hw
    | some j =>
      cases (decode_of_command h hop).symm.trans hw
      exact ⟨h, rfl⟩
  · cases (decode_of_rsvd h).symm.trans hw

/-- The legal words by their fields (R112). -/
theorem decode_command_iff_fields {w : Word} :
    (∃ i, decode w = .command i) ↔ rsvdField w = 0 ∧ (opField w).toNat ≤ 5 := by
  rw [← not_lt, ← opcodeMap_eq_none_iff, ← ne_eq, Option.ne_none_iff_exists']
  simp only [decode_eq_command_iff, exists_and_left]

/-- The legal words by their value (R112). -/
theorem decode_command_iff_toNat {w : Word} : (∃ i, decode w = .command i) ↔ w.toNat ≤ 5 := by
  have hrsvd : rsvdField w = 0 ↔ (rsvdField w).toNat = 0 := BitVec.toNat_eq
  rw [decode_command_iff_fields, toNat_eq_fields, hrsvd]
  omega

/-- A word above 5 is illegal (R112, R119). -/
theorem decode_illegal {w : Word} (h : 5 < w.toNat) : ∃ why, decode w = .illegal why := by
  cases hw : decode w with
  | command i => exact absurd (decode_command_iff_toNat.mp ⟨i, hw⟩) (by omega)
  | illegal why => exact ⟨why, rfl⟩

namespace Machine

/-- An illegal word raises ILL and starts no command (R248). -/
theorem acceptWord_illegal {w : Word} (h : 5 < w.toNat) (s : State) : acceptWord w s = .next (raise .ill s) := by
  obtain ⟨why, hw⟩ := decode_illegal h
  simp only [acceptWord, hw]

theorem hostWrite_cmd_idle (w : Word) {s : State} (h : s.phase = .idle) : hostWrite (some .cmd) w s = acceptWord w s :=
  unlessBusy_idle h

/-- POLL's one access reads the STATUS word, and POLL stays the next access while DONE is 0 (R127). -/
theorem hostPoll_eq (s : State) :
    hostPoll s = .next { s with
      host := if s.status.done then s.host else .poll :: s.host, reads := statusWord s.busy s.status :: s.reads } := by
  unfold hostPoll
  cases s.status.done <;> rfl

end Machine

end Sys2Proof

namespace Sys2Proof.Claims

open Sys2Proof Sys2Proof.Machine

/-- Settles O3: RSVD = 0 and the OP of a command are the two fields of its word, and of no other word. -/
theorem decodeInvertsEncode : Obligations.DecodeInvertsEncode := fun w i => by
  rw [decode_eq_command_iff, opcodeMap_eq_some_iff, eq_encode_iff]

/-- Settles O2: by the fields, and then by the value 16 * RSVD + OP. -/
theorem legalWordsAreExactlyZeroToFive : Obligations.LegalWordsAreExactlyZeroToFive := fun _ =>
  ⟨decode_command_iff_fields, decode_command_iff_toNat⟩

/-- Settles O1: the first six are the encoder's words, and the others are illegal by their fields. -/
theorem opcodeMapWordsDecode : Obligations.OpcodeMapWordsDecode :=
  ⟨decode_encode .nop, decode_encode .add, decode_encode .sub, decode_encode .mul, decode_encode .irred,
    decode_encode .table, decode_of_no_command (by decide) (by decide), decode_of_no_command (by decide) (by decide),
    decode_of_rsvd (by decide), decode_of_rsvd (by decide)⟩

/-- Settles O22: the step is a write of CMD while idle, and the word is none of the legal ones. -/
theorem illegalWordSetsIllAndDone : Obligations.IllegalWordSetsIllAndDone := by
  intro s w ops d rest hidle hh hs hw
  rw [step_hostAccess hs hh, hostAccess_write w _ rfl (by decide)]
  refine (hostWrite_cmd_idle w ?_).trans (acceptWord_illegal hw _)
  exact hidle

/-- Settles O26: bit 1 of the value read is DONE. -/
theorem pollReadsStatusUntilDone : Obligations.PollReadsStatusUntilDone := by
  intro s ops d rest hh hs
  refine ⟨statusWord s.busy s.status, getLsbD_statusWord s.busy s.status, ?_⟩
  obtain ⟨-, hdone, -⟩ := getLsbD_statusWord s.busy s.status
  rw [step_hostAccess hs hh, hdone]
  exact hostPoll_eq _

end Sys2Proof.Claims
end

section
/-! Proofs about a running MUL: each transition keeps the remaining iterations on their way to the product. -/

namespace Sys2Proof.Machine

namespace State.MulProgress

theorem of_not_running {s : State} (h : s.phase ≠ .run .mul) : s.MulProgress := fun hp => absurd hp h

theorem of_idle {s : State} (h : s.phase = .idle) : s.MulProgress := of_not_running (by simp [h])

/-- At acceptance every iteration is still to run (R150, R154). -/
theorem mulInit (s : State) : (mulInit s).MulProgress := fun _ _ => ⟨Nat.zero_le _, rfl⟩

theorem accept (s : State) (i : Instr) : (accept i (initOf i) s).MulProgress := by
  rcases accept_cases i (initOf i) s with ⟨-, -, he⟩ | ⟨-, he⟩
  · rw [he]
    exact fun _ hpf => by cases hpf
  · rw [he]
    cases i with
    | nop | add | sub | irred | table => exact of_not_running (by simp [initOf])
    | mul => exact mulInit _

/-- An iteration is the first of those still to run (R151). -/
theorem mulIteration {s : State} (h : s.MulProgress) (hk : s.k < iterations s.grade) : (mulIteration s).MulProgress := by
  intro hp hpf
  obtain ⟨-, hloop⟩ := h hp hpf
  refine ⟨hk, ?_⟩
  rw [show iterations s.grade - s.k = iterations s.grade - (s.k + 1) + 1 by omega, mulLoop_succ] at hloop
  exact hloop

theorem blockStep {s : State} {i : Instr} (h : s.MulProgress) (hrun : s.phase = .run i) :
    (blockStep (workOf i) (finishOf i) s).MulProgress := by
  by_cases hi : i = .mul
  · subst hi
    rcases blockStep_cases (workOf .mul) (finishOf .mul) s with ⟨-, he⟩ | ⟨-, t, hw, he⟩ | ⟨-, -, he⟩
    · exact he ▸ of_idle rfl
    · obtain ⟨hk, rfl⟩ := mulWork_some hw
      exact he ▸ h.mulIteration hk
    · exact he ▸ of_idle rfl
  · obtain ⟨-, -, -, ⟨hphase, -⟩ | ⟨hidle, -⟩⟩ := blockStep_effect i s
    · exact of_not_running (by simpa [hphase, hrun] using hi)
    · exact of_idle hidle

end State.MulProgress

theorem SameBlock.mulProgress {s u : State} (hu : SameBlock s u) (h : s.MulProgress) : u.MulProgress := by
  obtain ⟨_, _, _, _, _, rfl⟩ := hu.exists_eq
  exact h

theorem Move.mulProgress {s t : State} (m : Move s t) (h : s.MulProgress) : t.MulProgress := by
  cases m with
  | reset u hu _ ht => exact ht ▸ .of_idle rfl
  | block u hu i running ht => exact ht ▸ (hu.mulProgress h).blockStep (hu.phase.trans running)
  | accept u hu _ i _ ht => exact ht ▸ .accept u i
  | illegal u hu _ _ ht
  | dropped u hu _ _ ht
  | clear u hu _ _ ht
  | writeF u hu _ _ _ ht
  | writeG u hu _ _ _ ht
  | writeIp u hu _ _ _ ht
  | writeN u hu _ _ _ ht
  | writeTbase u hu _ _ _ ht
  | memWrite u hu _ _ _ _ _ _ ht
  | shows u hu _ _ _ _ _ _ ht =>
    have hu' : u.MulProgress := hu.mulProgress h
    subst ht
    exact hu'
  | quiet hu => exact hu.mulProgress h

end Sys2Proof.Machine

namespace Sys2Proof.Claims

open Sys2Proof Sys2Proof.Machine

/-- Settles O42: acceptance leaves every iteration to run, an iteration runs the first of them, and no other move of a running
MUL touches its working registers. -/
theorem stepKeepsMulProgress : Obligations.StepKeepsMulProgress :=
  fun _ _ hp h => (step_move h).mulProgress hp

end Sys2Proof.Claims
end

section
/-! Proofs about ADD, SUB and MUL: acceptance, work steps and completion as exact next states, and MUL taken to its end. -/

namespace Sys2Proof.Machine

open Sys2Proof.Claims

/-- A completion with pf = 0 clears BUSY with the phase, sets DONE and changes nothing else (R245). -/
theorem complete_checked {s : State} (hpf : s.pf = false) : complete s = completed s := by
  simp [complete, completed, hpf]

/-- A command that is not found to fail its check is accepted and sets up its working registers (R241). -/
theorem exec_accepted {i : Instr} {s : State} (hidle : s.phase = .idle)
    (hpre : s.cfg.checkPrecond = false ∨ precond i s.n.toNat s.ip = true) :
    exec i s = .next (initOf i (accepted i s)) := by
  rw [exec_idle i hidle]
  rcases accept_cases i (initOf i) s with ⟨hcheck, hfails, -⟩ | ⟨-, he⟩
  · simp [hcheck, hfails] at hpre
  · rw [he]
    rfl

/-- A running command that passed its check takes its work step while it has one (R243). -/
theorem exec_work {i : Instr} {s t : State} (hrun : s.phase = .run i) (hpf : s.pf = false) (hw : workOf i s = some t) :
    exec i s = .next t := by
  rw [exec_running hrun, blockStep, hpf, hw]
  rfl

/-- A running command that passed its check completes when it has no work step left (R244). -/
theorem exec_completed {i : Instr} {s : State} (hrun : s.phase = .run i) (hpf : s.pf = false) (hw : workOf i s = none) :
    exec i s = .next (completed (finishOf i s)) := by
  have hpf' : (finishOf i s).pf = false := by cases i <;> exact hpf
  rw [exec_running hrun, blockStep, hpf, hw, ← complete_checked hpf']
  rfl

/-- The legal range of grades, with N_MAX = 30 (R11). -/
theorem legalGrade_iff {n : Nat} : legalGrade n = true ↔ 1 ≤ n ∧ n ≤ 30 := by
  simp only [legalGrade, Bool.and_eq_true, decide_eq_true_eq, show nMax = 30 from rfl]

/-- MulPrecond: a legal grade, and a modulus with bit n set (R264). -/
theorem precond_mul_iff {n : Nat} {ip : Word} :
    precond .mul n ip = true ↔ 1 ≤ n ∧ n ≤ 30 ∧ ip.getLsbD n = true := by
  simp only [precond, Bool.and_eq_true, legalGrade_iff, and_assoc]

theorem exec_mul_accepted {s : State} (hidle : s.phase = .idle)
    (hpre : s.cfg.checkPrecond = false ∨ (1 ≤ s.n.toNat ∧ s.n.toNat ≤ 30 ∧ s.ip.getLsbD s.n.toNat = true)) :
    exec .mul s = .next (mulInit (accepted .mul s)) :=
  exec_accepted hidle (hpre.imp_right precond_mul_iff.mpr)

theorem exec_mul_iteration {s : State} (hrun : s.phase = .run .mul) (hpf : s.pf = false) (hk : s.k < iterations s.grade) :
    exec .mul s = .next (mulIteration s) :=
  exec_work hrun hpf (if_pos hk)

theorem exec_mul_completed {s : State} (hrun : s.phase = .run .mul) (hpf : s.pf = false)
    (hk : ¬ s.k < iterations s.grade) : exec .mul s = .next { completed s with result := s.acc } :=
  exec_completed hrun hpf (if_neg hk)

theorem execTimes_succ {i : Instr} {m : Nat} {s t : State} (h : exec i s = .next t) :
    execTimes i (m + 1) s = execTimes i m t := by
  simp only [execTimes, h]

/-- A running MUL with `j` iterations to go takes them and then completes with the loop's accumulator in RESULT (R151,
R155). -/
theorem execTimes_mul_running (j : Nat) {s : State} (hrun : s.phase = .run .mul) (hpf : s.pf = false)
    (hj : s.k + j = iterations s.grade) :
    ∃ fw gw, execTimes .mul (j + 1) s = .next
      { completed s with
        acc := mulLoop s.lip s.grade j s.acc s.fw s.gw, fw := fw, gw := gw, k := iterations s.grade
        result := mulLoop s.lip s.grade j s.acc s.fw s.gw } := by
  induction j generalizing s with
  | zero =>
    have hk : s.k = iterations s.grade := hj
    refine ⟨s.fw, s.gw, ?_⟩
    rw [execTimes_succ (exec_mul_completed hrun hpf (by omega)), ← hk]
    rfl
  | succ j ih =>
    rw [execTimes_succ (exec_mul_iteration hrun hpf (by omega))]
    exact ih (s := mulIteration s) hrun hpf (by rw [mulIteration_k, mulIteration_grade]; omega)

end Sys2Proof.Machine

namespace Sys2Proof.Claims

open Sys2Proof Sys2Proof.Machine

/-- Settles O10: ADD has no check, no working registers and no work step. -/
theorem addWritesXor : Obligations.AddWritesXor := fun _ =>
  ⟨fun hidle => exec_accepted hidle (.inr rfl), fun hrun hpf => exec_completed hrun hpf rfl⟩

/-- Settles O11: SUB is ADD, step by step. -/
theorem subWritesXor : Obligations.SubWritesXor := fun _ =>
  ⟨fun hidle => exec_accepted hidle (.inr rfl), fun hrun hpf => exec_completed hrun hpf rfl⟩

/-- Settles O13: the three stages of MUL's lifecycle, its bound being `iterations`. -/
theorem mulAcceptsIteratesAndCompletes : Obligations.MulAcceptsIteratesAndCompletes := fun _ =>
  ⟨exec_mul_accepted, exec_mul_iteration, exec_mul_completed⟩

/-- Settles O14: after acceptance all min(n, W) iterations are still to run. -/
theorem mulTakenToItsEndGivesTheProduct : Obligations.MulTakenToItsEndGivesTheProduct := by
  intro s hidle hpre
  rw [execTimes_succ (exec_mul_accepted hidle hpre)]
  exact execTimes_mul_running (s := mulInit (accepted .mul s)) _ rfl rfl (Nat.zero_add _)

end Sys2Proof.Claims
end

section
/-! Proofs about the adder and the multiply, bit by bit: which bits of f, g and ip the product reads, and the corner cases. -/

namespace Sys2Proof.Machine

/-- A word is below 2^n when no bit at position n or above is set. -/
theorem toNat_lt_two_pow_iff {v : Word} {n : Nat} : v.toNat < 2 ^ n ↔ ∀ i, n ≤ i → v.getLsbD i = false := by
  constructor
  · intro h i hi
    rw [← BitVec.testBit_toNat]
    exact Nat.testBit_lt_two_pow (h.trans_le (Nat.pow_le_pow_right (by omega) hi))
  · intro h
    refine Nat.lt_pow_two_of_testBit _ fun i hi => ?_
    rw [BitVec.testBit_toNat]
    exact h i hi

/-- The sum of two field elements of grade n is one of grade n (R143). -/
theorem gf2nAdd_lt {a b : Word} {n : Nat} (ha : a.toNat < 2 ^ n) (hb : b.toNat < 2 ^ n) : (gf2nAdd a b).toNat < 2 ^ n := by
  rw [gf2nAdd, BitVec.toNat_xor]
  exact Nat.xor_lt_two_pow ha hb

theorem reduceStep_lt (fw ip : Word) (n : Nat) : (reduceStep fw ip n).toNat < 2 ^ n :=
  toNat_lt_two_pow_iff.mpr fun _ hi => getLsbD_reduceStep_high fw ip hi

theorem reduceStep_zero (ip : Word) (n : Nat) : reduceStep 0 ip n = 0 := by
  simp [reduceStep]

/-- The product's first iteration, taken apart: f itself where g[0] = 1, and the loop on the rest (R151, R157). -/
theorem multiply_eq_first {n : Nat} (f g ip : Word) (hn : 1 ≤ n) :
    multiply f g ip n =
      (if g.getLsbD 0 then f else 0) ^^^ mulLoop ip n (iterations n - 1) 0 (reduceStep f ip n) (g >>> 1) := by
  have hk : iterations n = iterations n - 1 + 1 := by unfold iterations dataW; omega
  rw [multiply, hk, mulLoop_succ, mulLoop_acc, Nat.add_sub_cancel]
  simp [accumulate, gf2nAdd]

/-- While fw is below 2^n, the loop leaves the accumulator's bits at positions n and above alone (R157). -/
theorem getLsbD_mulLoop_high {ip : Word} {n : Nat} (j : Nat) {acc fw : Word} (gw : Word) (hfw : fw.toNat < 2 ^ n)
    {i : Nat} (hi : n ≤ i) : (mulLoop ip n j acc fw gw).getLsbD i = acc.getLsbD i := by
  induction j generalizing acc fw gw with
  | zero => rfl
  | succ j ih =>
    have hfi : fw.getLsbD i = false := toNat_lt_two_pow_iff.mp hfw i hi
    rw [mulLoop_succ, ih _ (reduceStep_lt fw ip n), accumulate]
    split <;> simp [gf2nAdd, hfi]

/-- The product's bits at positions n and above are those of f where g[0] = 1 (R157). -/
theorem getLsbD_multiply_high {n i : Nat} (f g ip : Word) (hn : 1 ≤ n) (hi : n ≤ i) :
    (multiply f g ip n).getLsbD i = (g.getLsbD 0 && f.getLsbD i) := by
  rw [multiply_eq_first f g ip hn, BitVec.getLsbD_xor, getLsbD_mulLoop_high _ _ (reduceStep_lt f ip n) hi]
  cases g.getLsbD 0 <;> simp

/-- The reduction bound (R162). -/
theorem multiply_lt {n : Nat} {f : Word} (g ip : Word) (hn : 1 ≤ n) (hf : f.toNat < 2 ^ n) :
    (multiply f g ip n).toNat < 2 ^ n := by
  refine toNat_lt_two_pow_iff.mpr fun i hi => ?_
  rw [getLsbD_multiply_high f g ip hn hi, toNat_lt_two_pow_iff.mp hf i hi, Bool.and_false]

/-- `j` iterations read the low n bits of ip and the low j bits of gw (R159). -/
theorem mulLoop_congr {ip ip' : Word} {n : Nat} (hip : ip &&& mask n = ip' &&& mask n) (j : Nat) {acc fw gw gw' : Word}
    (hg : ∀ i, i < j → gw.getLsbD i = gw'.getLsbD i) : mulLoop ip n j acc fw gw = mulLoop ip' n j acc fw gw' := by
  induction j generalizing acc fw gw gw' with
  | zero => rfl
  | succ j ih =>
    have hacc : accumulate acc fw gw = accumulate acc fw gw' := by rw [accumulate, accumulate, hg 0 (by omega)]
    rw [mulLoop_succ, mulLoop_succ, hacc, reduceStep_congr fw hip]
    refine ih fun i hi => ?_
    rw [BitVec.getLsbD_ushiftRight, BitVec.getLsbD_ushiftRight]
    exact hg (1 + i) (by omega)

theorem multiply_congr {f g g' ip ip' : Word} {n : Nat} (hip : ip &&& mask n = ip' &&& mask n)
    (hg : g &&& mask n = g' &&& mask n) : multiply f g ip n = multiply f g' ip' n := by
  refine mulLoop_congr hip _ fun i hi => ?_
  have hi' : i < n ∧ i < 32 := by unfold iterations dataW at hi; omega
  have hbit : (g &&& mask n).getLsbD i = (g' &&& mask n).getLsbD i := by rw [hg]
  rwa [BitVec.getLsbD_and, BitVec.getLsbD_and, getLsbD_mask, decide_eq_true hi', Bool.and_true, Bool.and_true] at hbit

/-- Bit n and the bits above it are no part of the low n bits (R159). -/
theorem or_twoPow_and_mask (v : Word) (n : Nat) : (v ||| 1#32 <<< n) &&& mask n = v &&& mask n := by
  refine BitVec.eq_of_getLsbD_eq fun i _ => ?_
  by_cases hi : i < n <;> simp [getLsbD_mask, hi]

theorem mulLoop_zero_fw (ip : Word) (n j : Nat) (acc gw : Word) : mulLoop ip n j acc 0 gw = acc := by
  induction j generalizing acc gw with
  | zero => rfl
  | succ j ih =>
    rw [mulLoop_succ, reduceStep_zero, ih, accumulate]
    simp [gf2nAdd]

theorem multiply_zero_left (g ip : Word) (n : Nat) : multiply 0 g ip n = 0 := mulLoop_zero_fw ..

theorem multiply_zero_right (f ip : Word) (n : Nat) : multiply f 0 ip n = 0 := mulLoop_zero_gw ..

theorem multiply_one_right {n : Nat} (f ip : Word) (hn : 1 ≤ n) : multiply f 1 ip n = f := by
  rw [multiply_eq_first f 1 ip hn, show (1 : Word) >>> 1 = 0 by decide, mulLoop_zero_gw]
  simp

end Sys2Proof.Machine

namespace Sys2Proof.Claims

open Sys2Proof Sys2Proof.Machine

/-- Settles O57: the adder is exclusive or, bit by bit. -/
theorem adderLaws : Obligations.AdderLaws := fun a b c =>
  ⟨BitVec.xor_comm a b, BitVec.xor_assoc a b c, BitVec.xor_self, BitVec.xor_zero, rfl, fun _ => gf2nAdd_lt⟩

/-- Settles O53: only the first iteration adds a word with bits at position n or above. -/
theorem highBitsOfTheProductComeFromF : Obligations.HighBitsOfTheProductComeFromF := by
  intro f g ip n hn
  refine BitVec.eq_of_getLsbD_eq fun i hi32 => ?_
  rw [BitVec.getLsbD_and, BitVec.getLsbD_not, getLsbD_mask]
  rcases Nat.lt_or_ge i n with hi | hi
  · cases g.getLsbD 0 <;> simp [-BitVec.getLsbD_eq_getElem, getLsbD_mask, hi, hi32]
  · rw [getLsbD_multiply_high f g ip hn hi]
    cases g.getLsbD 0 <;> simp [-BitVec.getLsbD_eq_getElem, getLsbD_mask, hi32]

/-- Settles O54: the loop takes the same steps on words with the same low n bits. -/
theorem productReadsOnlyTheLowBitsOfIpAndG : Obligations.ProductReadsOnlyTheLowBitsOfIpAndG := by
  intro f g ip n
  have hmask : ∀ v : Word, v &&& mask n = v &&& mask n &&& mask n := fun v => by
    rw [BitVec.and_assoc, BitVec.and_self]
  exact ⟨multiply_congr (hmask ip) (hmask g), multiply_congr ((hmask ip).trans (or_twoPow_and_mask _ n).symm) rfl⟩

/-- Settles O56: at grade 0 no iteration runs, 0 stays 0 under the reduction step, and the bits of 0 and 1 above the lowest
are 0. -/
theorem multiplyCornerCases : Obligations.MultiplyCornerCases := fun f g ip n =>
  ⟨rfl, multiply_zero_left g ip n, multiply_zero_right f ip n, multiply_one_right f ip⟩

end Sys2Proof.Claims
end

section
/-! Proofs about the multiply as polynomial arithmetic over GF(2): a reduction step is a multiplication by X modulo the polynomial
the grade and ip stand for, and so the loop computes f times g modulo it. -/

namespace Sys2Proof.Machine

open Sys2Proof.Claims Polynomial

/-! Words as polynomials (R20). -/

theorem coeff_poly (v : Word) (i : Nat) : (poly v).coeff i = if v.getLsbD i then 1 else 0 := by
  have hterm : ∀ j, (if v.getLsbD j then X ^ j else 0 : (ZMod 2)[X]).coeff i =
      if i = j then (if v.getLsbD j then 1 else 0) else 0 := fun j => by
    split <;> simp [coeff_X_pow]
  rw [poly, finsetSum_coeff, Finset.sum_congr rfl fun j _ => hterm j, Finset.sum_ite_eq]
  by_cases hi : i < 32
  · rw [if_pos (Finset.mem_range.mpr hi)]
  · rw [if_neg (mt Finset.mem_range.mp hi), BitVec.getLsbD_of_ge v i (by omega)]
    rfl

@[simp] theorem poly_zero : poly 0#32 = 0 := by
  ext i
  simp [coeff_poly]

theorem poly_xor (a b : Word) : poly (a ^^^ b) = poly a + poly b := by
  ext i
  rw [coeff_add, coeff_poly, coeff_poly, coeff_poly, BitVec.getLsbD_xor]
  cases a.getLsbD i <;> cases b.getLsbD i <;> decide

theorem poly_injective {a b : Word} (h : poly a = poly b) : a = b := by
  refine BitVec.eq_of_getLsbD_eq fun i _ => ?_
  have hi : (poly a).coeff i = (poly b).coeff i := by rw [h]
  rw [coeff_poly, coeff_poly] at hi
  cases ha : a.getLsbD i <;> cases hb : b.getLsbD i <;> simp [ha, hb] at hi ⊢

theorem degree_poly_lt {v : Word} {n : Nat} (h : v.toNat < 2 ^ n) : (poly v).degree < n := by
  rw [degree_lt_iff_coeff_zero]
  intro i hi
  rw [coeff_poly, toNat_lt_two_pow_iff.mp h i hi]
  rfl

/-- A word is its lowest bit and X times the word shifted right. -/
theorem poly_eq_bit_add (v : Word) : poly v = (if v.getLsbD 0 then 1 else 0 : (ZMod 2)[X]) + X * poly (v >>> 1) := by
  ext i
  rw [coeff_add]
  cases i with
  | zero =>
    rw [coeff_poly, mul_coeff_zero, coeff_X_zero, zero_mul, add_zero]
    split <;> simp
  | succ i =>
    have hlow : (if v.getLsbD 0 then 1 else 0 : (ZMod 2)[X]).coeff (i + 1) = 0 := by split <;> simp [coeff_one]
    rw [hlow, zero_add, coeff_X_mul, coeff_poly, coeff_poly, BitVec.getLsbD_ushiftRight, Nat.add_comm 1 i]

/-- Shifted left by one bit and cut to n bits, a word below 2^n loses the bit that becomes X^n (R152). -/
theorem X_mul_poly {fw : Word} {n : Nat} (hn : 1 ≤ n) (hn32 : n ≤ 32) (hfw : fw.toNat < 2 ^ n) :
    X * poly fw = poly (fw <<< 1 &&& mask n) + if fw.getLsbD (n - 1) then X ^ n else 0 := by
  ext i
  have hterm : (if fw.getLsbD (n - 1) then X ^ n else 0 : (ZMod 2)[X]).coeff i =
      if i = n then (if fw.getLsbD (n - 1) then 1 else 0) else 0 := by
    split <;> simp [coeff_X_pow]
  rw [coeff_add, hterm, coeff_poly, BitVec.getLsbD_and, BitVec.getLsbD_shiftLeft, getLsbD_mask]
  cases i with
  | zero => simp [show 0 ≠ n by omega]
  | succ i =>
    rw [coeff_X_mul, coeff_poly]
    rcases Nat.lt_trichotomy (i + 1) n with hi | rfl | hi
    · simp [hi, show i + 1 < 32 by omega, show i + 1 ≠ n by omega]
    · simp
    · have hbit : fw.getLsbD i = false := toNat_lt_two_pow_iff.mp hfw i (by omega)
      simp [hbit, show i + 1 ≠ n by omega]

/-- The low n bits of a word have degree below n. -/
theorem degree_low_lt (v : Word) (n : Nat) : (poly (v &&& mask n)).degree < n :=
  degree_poly_lt (toNat_lt_two_pow_iff.mpr fun i hi => by
    rw [BitVec.getLsbD_and, getLsbD_mask, decide_eq_false (by omega), Bool.and_false])

/-- A word below 2^(n+1) whose bit n is set is X^n and its low bits (R22). -/
theorem poly_eq_X_pow_add {v : Word} {n : Nat} (hn : n < 32) (hbit : v.getLsbD n = true) (hv : v.toNat < 2 ^ (n + 1)) :
    poly v = X ^ n + poly (v &&& mask n) := by
  ext i
  rw [coeff_add, coeff_X_pow, coeff_poly, coeff_poly, BitVec.getLsbD_and, getLsbD_mask]
  rcases Nat.lt_trichotomy i n with hi | rfl | hi
  · simp [hi, show i < 32 by omega, show i ≠ n by omega]
  · simp [hbit]
  · have hhigh : v.getLsbD i = false := toNat_lt_two_pow_iff.mp hv i hi
    simp [hhigh, show i ≠ n by omega]

/-- From W on, the mask keeps every bit (R16). -/
theorem and_mask_of_le {n : Nat} (v : Word) (hn : 32 ≤ n) : v &&& mask n = v := by
  refine BitVec.eq_of_getLsbD_eq fun i hi => ?_
  rw [BitVec.getLsbD_and, getLsbD_mask, decide_eq_true ⟨by omega, hi⟩, Bool.and_true]

/-! What the loop computes (R156, R160). -/

/-- The polynomial the multiply reduces by: X^n and the low n bits of ip, or X^W where the grade is above W and what leaves the
register is lost. -/
noncomputable def modulus (ip : Word) (n : Nat) : (ZMod 2)[X] :=
  if n ≤ 32 then X ^ n + poly (ip &&& mask n) else X ^ 32

theorem modulus_of_le {ip : Word} {n : Nat} (hn : n ≤ 32) : modulus ip n = X ^ n + poly (ip &&& mask n) := if_pos hn

theorem modulus_of_gt {ip : Word} {n : Nat} (hn : 32 < n) : modulus ip n = X ^ 32 := if_neg (by omega)

/-- A reduction step multiplies fw by X modulo the modulus (R152). -/
theorem modulus_dvd_reduceStep {fw : Word} {n : Nat} (ip : Word) (hn : 1 ≤ n) (hfw : fw.toNat < 2 ^ n) :
    modulus ip n ∣ X * poly fw - poly (reduceStep fw ip n) := by
  rw [reduceStep, poly_xor]
  rcases Nat.lt_or_ge 32 n with h32 | h32
  · rw [modulus_of_gt h32, X_mul_poly (by decide) le_rfl fw.isLt, and_mask_of_le _ h32.le, and_mask_of_le _ le_rfl,
      BitVec.getLsbD_of_ge fw (n - 1) (by omega)]
    split <;> simp
  · rw [modulus_of_le h32, X_mul_poly hn h32 hfw, add_sub_add_left_eq_sub]
    split <;> simp [CharTwo.sub_eq_add]

/-- The loop adds fw times gw to the accumulator modulo the modulus, while the iterations cover gw (R151, R153). -/
theorem modulus_dvd_mulLoop {ip : Word} {n : Nat} (hn : 1 ≤ n) (j : Nat) {acc fw gw : Word} (hfw : fw.toNat < 2 ^ n)
    (hgw : gw.toNat < 2 ^ j) :
    modulus ip n ∣ poly acc + poly fw * poly gw - poly (mulLoop ip n j acc fw gw) := by
  induction j generalizing acc fw gw with
  | zero =>
    obtain rfl : gw = 0 := BitVec.eq_of_toNat_eq (by simpa using hgw)
    simp [mulLoop]
  | succ j ih =>
    have hgw' : (gw >>> 1).toNat < 2 ^ j := by
      rw [BitVec.toNat_ushiftRight, Nat.shiftRight_eq_div_pow]
      omega
    have hacc : poly (accumulate acc fw gw) = poly acc + poly fw * (if gw.getLsbD 0 then 1 else 0) := by
      rw [accumulate]
      split <;> simp [gf2nAdd, poly_xor]
    have hrest := ih (acc := accumulate acc fw gw) (reduceStep_lt fw ip n) hgw'
    have hstep := (modulus_dvd_reduceStep ip hn hfw).mul_right (poly (gw >>> 1))
    rw [mulLoop_succ]
    convert dvd_add hrest hstep using 1
    rw [hacc, poly_eq_bit_add gw]
    ring

theorem modulus_dvd_multiply {f g : Word} {n : Nat} (ip : Word) (hn : 1 ≤ n) (hf : f.toNat < 2 ^ n)
    (hg : g.toNat < 2 ^ iterations n) : modulus ip n ∣ poly f * poly g - poly (multiply f g ip n) := by
  have h := modulus_dvd_mulLoop (ip := ip) (acc := 0#32) hn (iterations n) hf hg
  rwa [poly_zero, zero_add] at h

/-- Up to grade W the product of words below 2^n is the remainder by X^n and the low bits of ip (R156, R160). -/
theorem poly_multiply {f g : Word} {n : Nat} (ip : Word) (hn : 1 ≤ n) (hn32 : n ≤ 32) (hf : f.toNat < 2 ^ n)
    (hg : g.toNat < 2 ^ n) : poly (multiply f g ip n) = (poly f * poly g) %ₘ (X ^ n + poly (ip &&& mask n)) := by
  have hmonic := monic_X_pow_add (degree_low_lt ip n)
  have hdegree : (X ^ n + poly (ip &&& mask n)).degree = (n : WithBot ℕ) := by
    rw [degree_add_eq_left_of_degree_lt (by simpa only [degree_X_pow] using degree_low_lt ip n), degree_X_pow]
  have hdvd : X ^ n + poly (ip &&& mask n) ∣ poly f * poly g - poly (multiply f g ip n) := by
    rw [← modulus_of_le hn32]
    exact modulus_dvd_multiply ip hn hf (by rwa [show iterations n = n from Nat.min_eq_left hn32])
  have hlt : (poly (multiply f g ip n)).degree < (X ^ n + poly (ip &&& mask n)).degree := by
    rw [hdegree]
    exact degree_poly_lt (multiply_lt g ip hn hf)
  rw [modByMonic_eq_of_dvd_sub hmonic hdvd, (modByMonic_eq_self_iff hmonic).mpr hlt]

/-- A factor may be replaced by its remainder. -/
theorem modByMonic_mul_modByMonic {q : (ZMod 2)[X]} (hq : q.Monic) (a b : (ZMod 2)[X]) :
    (a %ₘ q * b) %ₘ q = (a * b) %ₘ q := by
  refine modByMonic_eq_of_dvd_sub hq ?_
  rw [← sub_mul]
  exact (dvd_modByMonic_sub a q).mul_right b

/-- Valid operands, taken apart (R22). -/
theorem validOperands_iff {n : Nat} {ip f g : Word} : validOperands n ip f g = true ↔
    (1 ≤ n ∧ n ≤ 30) ∧ ip.getLsbD n = true ∧ ip.toNat < 2 ^ (n + 1) ∧ f.toNat < 2 ^ n ∧ g.toNat < 2 ^ n := by
  simp only [validOperands, Bool.and_eq_true, decide_eq_true_eq, legalGrade_iff, and_assoc]

section
variable {n : Nat} {ip : Word} (hn : 1 ≤ n ∧ n ≤ 30) (hbit : ip.getLsbD n = true) (hip : ip.toNat < 2 ^ (n + 1))
include hn hbit hip

/-- At a legal grade, with a modulus of that degree, the product is the remainder by ip (R156). -/
theorem poly_multiply_valid {f g : Word} (hf : f.toNat < 2 ^ n) (hg : g.toNat < 2 ^ n) :
    poly (multiply f g ip n) = (poly f * poly g) %ₘ poly ip := by
  rw [poly_eq_X_pow_add (by omega) hbit hip]
  exact poly_multiply ip hn.1 (by omega) hf hg

theorem multiply_comm {f g : Word} (hf : f.toNat < 2 ^ n) (hg : g.toNat < 2 ^ n) :
    multiply f g ip n = multiply g f ip n := by
  apply poly_injective
  rw [poly_multiply_valid hn hbit hip hf hg, poly_multiply_valid hn hbit hip hg hf, mul_comm]

theorem multiply_gf2nAdd {f g h : Word} (hf : f.toNat < 2 ^ n) (hg : g.toNat < 2 ^ n) (hh : h.toNat < 2 ^ n) :
    multiply f (gf2nAdd g h) ip n = gf2nAdd (multiply f g ip n) (multiply f h ip n) := by
  apply poly_injective
  rw [poly_multiply_valid hn hbit hip hf (gf2nAdd_lt hg hh), gf2nAdd, gf2nAdd, poly_xor, poly_xor,
    poly_multiply_valid hn hbit hip hf hg, poly_multiply_valid hn hbit hip hf hh, mul_add, add_modByMonic]

/-- Both sides are the remainder of f times g times h (R162). -/
theorem multiply_assoc {f g h : Word} (hf : f.toNat < 2 ^ n) (hg : g.toNat < 2 ^ n) (hh : h.toNat < 2 ^ n) :
    multiply (multiply f g ip n) h ip n = multiply f (multiply g h ip n) ip n := by
  apply poly_injective
  have hmonic : (poly ip).Monic := by
    rw [poly_eq_X_pow_add (by omega) hbit hip]
    exact monic_X_pow_add (degree_low_lt ip n)
  rw [poly_multiply_valid hn hbit hip (multiply_lt g ip hn.1 hf) hh, poly_multiply_valid hn hbit hip hf hg,
    poly_multiply_valid hn hbit hip hf (multiply_lt h ip hn.1 hg), poly_multiply_valid hn hbit hip hg hh,
    modByMonic_mul_modByMonic hmonic, mul_comm (poly f) (_ %ₘ _), modByMonic_mul_modByMonic hmonic, mul_assoc,
    mul_comm (poly f)]

end

end Sys2Proof.Machine

namespace Sys2Proof.Claims

open Sys2Proof Sys2Proof.Machine Polynomial

/-- Settles O51: the loop's congruence and the reduction bound fix the remainder. -/
theorem productIsTheRemainder : Obligations.ProductIsTheRemainder := by
  intro f g ip n hvalid
  obtain ⟨hn, hbit, hip, hf, hg⟩ := validOperands_iff.mp hvalid
  exact ⟨multiply_lt g ip hn.1 hf, poly_multiply_valid hn hbit hip hf hg⟩

/-- Settles O52: the corner cases of the multiply, and the laws of remainders by ip. -/
theorem arithmeticLawsModuloIp : Obligations.ArithmeticLawsModuloIp := by
  intro f g h ip n hvalid hh
  obtain ⟨hn, hbit, hip, hf, hg⟩ := validOperands_iff.mp hvalid
  exact ⟨multiply_one_right f ip hn.1, multiply_zero_right f ip n, multiply_comm hn hbit hip hf hg,
    multiply_gf2nAdd hn hbit hip hf hg hh, multiply_lt g ip hn.1 hf, BitVec.xor_self, rfl,
    multiply_assoc hn hbit hip hf hg hh⟩

/-- Settles O55: at 31 and 32 the remainder as at every grade up to W; above, the product modulo X^32, which fixes the low 32
coefficients. -/
theorem gradesAboveTheLegalRange : Obligations.GradesAboveTheLegalRange := by
  intro f g ip n
  refine ⟨fun hn hf hg => poly_multiply ip (by omega) (by omega) hf hg, fun hn i hi => ?_⟩
  have hf : f.toNat < 2 ^ n := f.isLt.trans (Nat.pow_lt_pow_right (by decide) hn)
  have hg : g.toNat < 2 ^ iterations n := by
    rw [show iterations n = 32 from Nat.min_eq_right hn.le]
    exact g.isLt
  have hdvd : X ^ 32 ∣ poly f * poly g - poly (multiply f g ip n) := by
    rw [← modulus_of_gt (ip := ip) hn]
    exact modulus_dvd_multiply ip (by omega) hf hg
  have hcoeff := X_pow_dvd_iff.mp hdvd i hi
  rwa [coeff_sub, sub_eq_zero, coeff_poly] at hcoeff

end Sys2Proof.Claims
end

section
/-! Proofs about the ROM: its modulus as a number, its degree, the command IRRED, and the grades where it has zero divisors. -/

namespace Sys2Proof.Machine

/-- Where bit n exists and is set apart from x + 1, the modulus is 2^n + 3 (R190). -/
theorem toNat_ipRom {n : Nat} (h2 : 2 ≤ n) (h31 : n ≤ 31) : (ipRom n).toNat = 2 ^ n + 3 := by
  have h3 : 3 < 2 ^ n := lt_of_lt_of_le (by decide) (Nat.pow_le_pow_right (by decide) h2)
  have hbit : (1#32 <<< n).toNat = 2 ^ n := BitVec.toNat_twoPow_of_lt (Nat.lt_succ_of_le h31)
  have hor : 2 ^ n ||| 3 = 2 ^ n + 3 := by simpa using (Nat.two_pow_add_eq_or_of_lt h3 1).symm
  rw [ipRom, if_pos ⟨h2, Nat.lt_succ_of_le h31⟩, BitVec.or_comm, BitVec.toNat_or, hbit]
  exact hor

/-- At every other grade the policy leaves x + 1 as it is (R191). -/
theorem ipRom_outside {n : Nat} (h : n ≤ 1 ∨ 32 ≤ n) : ipRom n = 3#32 :=
  if_neg (by unfold dataW; omega)

/-- The modulus has leading term x^n: n = 1 too, where that is the x of x + 1 (R195). -/
theorem toNat_ipRom_leading {n : Nat} (h1 : 1 ≤ n) (h31 : n ≤ 31) :
    ∃ b, b < 2 ^ n ∧ (ipRom n).toNat = 2 ^ n + b := by
  rcases h1.eq_or_lt with rfl | h2
  · exact ⟨1, by decide, rfl⟩
  · exact ⟨3, lt_of_lt_of_le (by decide) (Nat.pow_le_pow_right (by decide) h2), toNat_ipRom h2 h31⟩

/-- The ROM passes the degree part of Valid at every grade from 1 to W - 1 (R195, R22). -/
theorem ipRom_degree {n : Nat} (h1 : 1 ≤ n) (h31 : n ≤ 31) :
    (ipRom n).getLsbD n = true ∧ (ipRom n).toNat < 2 ^ (n + 1) := by
  obtain ⟨b, hb, hrom⟩ := toNat_ipRom_leading h1 h31
  constructor
  · rw [← BitVec.testBit_toNat, hrom, Nat.testBit_two_pow_add_eq, Nat.testBit_lt_two_pow hb, Bool.not_false]
  · rw [hrom, pow_succ]
    omega

end Sys2Proof.Machine

namespace Sys2Proof.Claims

open Sys2Proof Sys2Proof.Machine

/-- Settles O58: the degree by the leading term, and the two values of the policy. -/
theorem romModulusHasDegreeN : Obligations.RomModulusHasDegreeN := fun _ =>
  ⟨ipRom_degree, toNat_ipRom, fun h => congrArg BitVec.toNat (ipRom_outside h)⟩

/-- Settles O12: IRRED checks the grade alone, and has no working registers and no work step. -/
theorem irredWritesTheRomModulus : Obligations.IrredWritesTheRomModulus := fun _ =>
  ⟨fun hidle hpre => exec_accepted hidle (hpre.imp_right legalGrade_iff.mpr),
    fun hrun hpf => exec_completed hrun hpf rfl⟩

/-- Settles O59: the 19 rows of R193's table, each multiplied out. -/
theorem reducibleRomGradesHaveZeroDivisors : Obligations.ReducibleRomGradesHaveZeroDivisors := by
  unfold Obligations.ReducibleRomGradesHaveZeroDivisors
  decide

end Sys2Proof.Claims
end

section
/-! Proofs about a running TABLE: its acceptance, its cell steps and its completion as exact next states. -/

namespace Sys2Proof.Machine

open Sys2Proof.Claims

theorem cellStep_admitted {s : State} {r c : Nat} (ha : admitted s.cfg (cellAddr s.tableBase s.grade r c) = true) :
    cellStep r c s = { s with
      mem := s.mem.writeLE (cellAddr s.tableBase s.grade r c) 4 (cellValue s.tip s.grade r c)
      pending := s.pending.remove r c } := if_pos ha

theorem cellStep_refused {s : State} {r c : Nat} (ha : admitted s.cfg (cellAddr s.tableBase s.grade r c) = false) :
    cellStep r c s = raise .berr s := if_neg (by simp [ha])

/-- BERR ends a TABLE that passed its check, and touches STATUS, the phase and P only (R216). -/
theorem raise_berr_checked {s : State} (hpf : s.pf = false) :
    raise .berr s = { s with
      status := { s.status with berr := true, done := true }, phase := .idle, pending := .empty } := by
  simp [raise, complete, hpf]

/-- A running TABLE that passed its check takes the cell step of its next cell (R214, R243). -/
theorem exec_table_cell {s : State} {r c : Nat} (hrun : s.phase = .run .table) (hpf : s.pf = false)
    (hcell : nextCell s = some (r, c)) : exec .table s = .next (cellStep r c s) :=
  exec_work hrun hpf (by simp only [workOf, tableWork, hcell])

theorem exec_table_refused {s : State} {r c : Nat} (hrun : s.phase = .run .table) (hpf : s.pf = false)
    (hcell : nextCell s = some (r, c)) (ha : admitted s.cfg (cellAddr s.tableBase s.grade r c) = false) :
    exec .table s = .next { s with
      status := { s.status with berr := true, done := true }, phase := .idle, pending := .empty } := by
  rw [exec_table_cell hrun hpf hcell, cellStep_refused ha, raise_berr_checked hpf]

theorem exec_table_completed {s : State} (hrun : s.phase = .run .table) (hpf : s.pf = false)
    (hempty : s.pending = .empty) : exec .table s = .next (completed s) :=
  exec_completed hrun hpf (tableWork_none.mpr hempty)

/-- While P is not empty TABLE has a next cell (R243). -/
theorem exists_nextCell {s : State} (h : s.pending ≠ .empty) : ∃ r c, nextCell s = some (r, c) := by
  obtain ⟨⟨r, c⟩, hcell⟩ := Option.ne_none_iff_exists'.mp (mt nextCell_none.mp h)
  exact ⟨r, c, hcell⟩

end Sys2Proof.Machine

namespace Sys2Proof.Claims

open Sys2Proof Sys2Proof.Machine

/-- Settles O15: TABLE checks the grade alone, starts with the whole grid pending, and has no work step left without a pending
cell. -/
theorem tableAcceptsAndCompletes : Obligations.TableAcceptsAndCompletes := fun s =>
  ⟨fun hidle hpre => ⟨fullGrid s.n.toNat, exec_accepted hidle (hpre.imp_right legalGrade_iff.mpr), fun _ _ => mem_fullGrid⟩,
    exec_table_completed⟩

/-- Settles O17: the block step is the cell step, which is BERR at a refused address. -/
theorem refusedCellEndsTheTable : Obligations.RefusedCellEndsTheTable :=
  fun _ _ _ hrun hpf hcell ha => exec_table_refused hrun hpf hcell ha

/-- Settles O16: the cell is TABLE's next one, and its step one little-endian write, or BERR. -/
theorem cellStepWritesOnePendingCell : Obligations.CellStepWritesOnePendingCell := by
  intro s hrun hpf hwf hne
  obtain ⟨r, c, hcell⟩ := exists_nextCell hne
  have hm : s.pending.mem r c = true := nextCell_mem hwf hcell
  refine ⟨r, c, hcell, hm, fun hpick hor => ?_, fun ha => ?_, exec_table_refused hrun hpf hcell⟩
  · exact Option.some.inj (hcell.symm.trans (nextCell_pick hpick (hor.imp_right shownPending_none.mpr)))
  · refine ⟨_, _, (exec_table_cell hrun hpf hcell).trans (congrArg _ (cellStep_admitted ha)), fun r' c' => ?_,
      fun j hj => Memory.read_writeLE_byte _ _ _ _ hj, fun x hx => Memory.read_writeLE_other _ _ _ _ hx⟩
    rw [CellSet.mem_remove hwf hm, ne_eq, Prod.mk.injEq]

end Sys2Proof.Claims
end

section
/-! Proofs about the admission of cell writes: the address bound holds the indices of a written cell below 2^30, and leaves no
room for a table of grade 15 beside the register window. -/

namespace Sys2Proof.Machine

/-- When every cell of a table is admitted, so is the word of every cell number (R80). -/
theorem admitted_of_cellNumber {cfg : Config} {b n : Nat}
    (hall : ∀ r c, r < 2 ^ n → c < 2 ^ n → admitted cfg (cellAddr b n r c) = true) {i : Nat} (hi : i < 4 ^ n) :
    admitted cfg (b + 4 * i) = true := by
  obtain ⟨hr, hc, hsplit⟩ := cellNumber_split hi
  have hcell := hall _ _ hr hc
  rwa [cellAddr, hsplit] at hcell

/-- No cell write reaches the register window (R83). -/
theorem not_admitted_windowBase (cfg : Config) : admitted cfg (windowBase cfg) ≠ true := fun h => by
  obtain ⟨-, -, hclear⟩ := admitted_iff.mp h
  omega

/-- A table of grade 15 fills the whole address space, and so takes in the register window; a larger one does not fit at all
(R219). -/
theorem exists_refused_cell (cfg : Config) (b : Nat) {n : Nat} (hn : 15 ≤ n) :
    ∃ r c, r < 2 ^ n ∧ c < 2 ^ n ∧ admitted cfg (cellAddr b n r c) = false := by
  by_contra hnone
  have hall : ∀ r c, r < 2 ^ n → c < 2 ^ n → admitted cfg (cellAddr b n r c) = true := fun r c hr hc => by
    by_contra ha
    exact hnone ⟨r, c, hr, hc, by simpa using ha⟩
  have hcells : 4 ^ 15 ≤ 4 ^ n := Nat.pow_le_pow_right (by decide) hn
  have hlast : b + 4 * (4 ^ n - 1) + 4 ≤ 2 ^ addrW := admitted_lt (admitted_of_cellNumber hall (by omega))
  have hbase : b = 0 := by
    unfold addrW at hlast
    omega
  have hwindow : b + 4 * (cfg.windowIndex.toNat * 0x10) = windowBase cfg := by
    unfold windowBase
    omega
  have hindex := cfg.windowIndex.isLt
  exact not_admitted_windowBase cfg (hwindow ▸ admitted_of_cellNumber hall (by omega))

/-- The block step that ends a TABLE raises BERR, or there was no cell pending (R215, R216). -/
theorem berr_or_empty_of_idle {s : State} (hw : s.pending.wf) (hrun : s.phase = .run .table) (hpf : s.pf = false)
    (hidle : (blockStep (workOf .table) (finishOf .table) s).phase = .idle) :
    (blockStep (workOf .table) (finishOf .table) s).status.berr = true ∨ s.pending = .empty := by
  rcases blockStep_cases (workOf .table) (finishOf .table) s with ⟨hpf', -⟩ | ⟨-, t, hwork, he⟩ | ⟨-, hwork, -⟩
  · simp [hpf] at hpf'
  · rw [he] at hidle ⊢
    obtain ⟨r, c, -, -, ⟨-, rfl⟩ | ⟨-, rfl⟩⟩ := tableWork_cases hw hwork
    · simp [hrun] at hidle
    · exact .inl rfl
  · exact .inr (tableWork_none.mp hwork)

/-- A block step that ends a command sets DONE (R245). -/
theorem done_of_idle {s : State} {i : Instr} (hrun : s.phase = .run i)
    (hidle : (blockStep (workOf i) (finishOf i) s).phase = .idle) :
    (blockStep (workOf i) (finishOf i) s).status.done = true := by
  obtain ⟨-, -, -, ⟨hphase, -⟩ | ⟨-, -, hdone, -⟩⟩ := blockStep_effect i s
  · simp [hidle, hrun] at hphase
  · exact hdone

theorem State.CellProgress.admitted {s : State} {r c : Nat} (h : s.CellProgress r c) (hw : s.pending.mem r c = false) :
    admitted s.cfg (cellAddr s.tableBase s.grade r c) = true := by
  rw [State.CellProgress, hw] at h
  exact h.1

/-- A large TABLE always has a cell pending: its refused cell cannot have been written (R219). -/
theorem State.TableProgress.pending_ne_empty {s : State} (h : s.TableProgress) (hrun : s.phase = .run .table)
    (hpf : s.pf = false) (hgrade : 15 ≤ s.grade) : s.pending ≠ .empty := fun hempty => by
  obtain ⟨r, c, hr, hc, hrefused⟩ := exists_refused_cell s.cfg s.tableBase hgrade
  obtain ⟨-, hcells⟩ := State.tableProgress_iff.mp h hrun hpf
  have hadm := (hcells r c hr hc).admitted (by rw [hempty]; rfl)
  simp [hrefused] at hadm

end Sys2Proof.Machine

namespace Sys2Proof.Claims

open Sys2Proof Sys2Proof.Machine

/-- Settles O50: the cell's word number is below 2^30, and each index is at most that number. -/
theorem writtenCellsFitInAWord : Obligations.WrittenCellsFitInAWord := by
  intro cfg b n r c ha
  have hend := admitted_lt ha
  have hrow : r ≤ r * 2 ^ n := Nat.le_mul_of_pos_right r (Nat.two_pow_pos n)
  unfold cellAddr addrW at hend
  omega

/-- Settles O48: the last cell bounds the base by 0 and the grade by 15, and the window's cell is then refused. -/
theorem largeTablesHaveARefusedCell : Obligations.LargeTablesHaveARefusedCell :=
  fun cfg b _ hn => exists_refused_cell cfg b hn

/-- Settles O49: the refused cell is still pending, so the step that ends the TABLE is BERR. -/
theorem largeTablesEndWithBerr : Obligations.LargeTablesEndWithBerr := by
  intro s t p rest hs hprog hrun hpf hgrade hsched h hidle
  have hu : SameBlock s { s with sched := rest, pick := p } := rfl
  cases (step_block_running hsched hrun).symm.trans h
  have hne := (hu.tableProgress hprog).pending_ne_empty hrun hpf hgrade
  have hend := berr_or_empty_of_idle (hu.coherent hs).pending_wf hrun hpf hidle
  exact ⟨hend.resolve_right hne, done_of_idle hrun hidle⟩

end Sys2Proof.Claims
end

section
/-! Proofs about the cells' values at a legal grade, by the laws of the multiply modulo the ROM's modulus. -/

namespace Sys2Proof.Machine

/-- An index of a legal grade is a field element of that grade (R221). -/
theorem toNat_index_lt {n i : Nat} (hi : i < 2 ^ n) : (BitVec.ofNat 32 i).toNat < 2 ^ n := by
  rw [BitVec.toNat_ofNat]
  exact (Nat.mod_le _ _).trans_lt hi

theorem tableCell_lt {n r : Nat} (c : Nat) (hn : 1 ≤ n) (hr : r < 2 ^ n) : (tableCell n r c).toNat < 2 ^ n :=
  multiply_lt _ _ hn (toNat_index_lt hr)

theorem tableCell_symm {n r c : Nat} (hn : 1 ≤ n ∧ n ≤ 30) (hr : r < 2 ^ n) (hc : c < 2 ^ n) :
    tableCell n r c = tableCell n c r := by
  obtain ⟨hbit, hip⟩ := ipRom_degree hn.1 (by omega)
  exact multiply_comm hn hbit hip (toNat_index_lt hr) (toNat_index_lt hc)

theorem tableCell_one_right {n : Nat} (r : Nat) (hn : 1 ≤ n) : tableCell n r 1 = BitVec.ofNat 32 r :=
  multiply_one_right _ _ hn

end Sys2Proof.Machine

namespace Sys2Proof.Claims

open Sys2Proof Sys2Proof.Machine

/-- Settles O60: the reduction bound, commutativity and the corner cases of the multiply; row 1 is column 1 by symmetry. -/
theorem tableCellsObeyTheListedProperties : Obligations.TableCellsObeyTheListedProperties := by
  intro n r c h1 h30 hr hc
  refine ⟨tableCell_lt c h1 hr, tableCell_symm ⟨h1, h30⟩ hr hc, multiply_zero_left _ _ _, multiply_zero_right _ _ _, ?_⟩
  have hone : 1 < 2 ^ n := Nat.one_lt_two_pow (by omega)
  rw [tableCell_symm ⟨h1, h30⟩ hone hc, tableCell_one_right c h1]

end Sys2Proof.Claims
end

section
/-! Proofs about a TABLE taken to its end: the table it leaves in memory, whatever the order of its cell steps. -/

namespace Sys2Proof.Machine

/-- Every byte of the table is one of a cell (R80). -/
theorem exists_cell_of_inTable {s : State} {a : Nat} (h : inTable s a = true) :
    ∃ r c j, r < 2 ^ s.grade ∧ c < 2 ^ s.grade ∧ j < 4 ∧ a = cellAddr s.tableBase s.grade r c + j := by
  simp only [inTable, Bool.and_eq_true, decide_eq_true_eq] at h
  obtain ⟨hr, hc, hsplit⟩ := cellNumber_split (n := s.grade) (i := (a - s.tableBase) / 4) (by omega)
  refine ⟨_, _, (a - s.tableBase) % 4, hr, hc, Nat.mod_lt _ (by decide), ?_⟩
  rw [cellAddr, hsplit]
  omega

namespace Memory

/-- The bytes of a known word are known. -/
theorem read_isSome_of_readLE {m : Memory} {a width : Nat} {v : Word} (h : m.readLE a width = some v) {j : Nat}
    (hj : j < width) : (m.read (a + j)).isSome = true := by
  induction width generalizing a v j with
  | zero => omega
  | succ w ih =>
    unfold readLE at h
    split at h
    · rename_i lo hi hlo hhi
      cases j with
      | zero => exact hlo ▸ rfl
      | succ j =>
        rw [← Nat.add_assoc, Nat.add_right_comm]
        exact ih hhi (by omega)
    · cases h

/-- Byte j of a word in memory holds bits 8j+7:8j of it (R81). -/
theorem read_of_readLE_word {m : Memory} {a : Nat} {v : Word} (h : m.readLE a 4 = some v) {j : Nat} (hj : j < 4) :
    m.read (a + j) = some (v.extractLsb' (8 * j) 8) := by
  have hbytes : ∀ i, i < 4 → m.read (a + i) = some ((m.read (a + i)).getD 0) := fun i hi => by
    obtain ⟨b, hb⟩ := Option.isSome_iff_exists.mp (read_isSome_of_readLE h hi)
    rw [hb, Option.getD_some]
  obtain ⟨v', hread, hbits⟩ := readLE_bytes (by decide) hbytes
  obtain rfl : v' = v := Option.some.inj (hread.symm.trans h)
  rw [hbytes j hj]
  refine congrArg some (BitVec.eq_of_getLsbD_eq fun k hk => ?_)
  rw [BitVec.getLsbD_extractLsb', hbits j k hk, decide_eq_true hj, decide_eq_true hk, Bool.true_and, Bool.true_and]

/-- Every cell of the table of grade `n` at `b` holds its value, little-endian (R210, R81). -/
def HoldsTable (m : Memory) (b n : Nat) : Prop :=
  ∀ r c, r < 2 ^ n → c < 2 ^ n → m.readLE (cellAddr b n r c) 4 = some (tableCell n r c)

/-- Two memories that hold the whole table agree on its bytes. -/
theorem HoldsTable.read_eq {m m' : Memory} {s : State} (h : m.HoldsTable s.tableBase s.grade)
    (h' : m'.HoldsTable s.tableBase s.grade) {a : Nat} (ha : inTable s a = true) : m.read a = m'.read a := by
  obtain ⟨r, c, j, hr, hc, hj, rfl⟩ := exists_cell_of_inTable ha
  rw [read_of_readLE_word (h r c hr hc) hj, read_of_readLE_word (h' r c hr hc) hj]

end Memory

/-- A running TABLE with no cell pending has put the whole table in memory. -/
theorem State.TableProgress.holdsTable {s : State} (h : s.TableProgress) (hrun : s.phase = .run .table)
    (hpf : s.pf = false) (hempty : s.pending = .empty) : s.mem.HoldsTable s.tableBase s.grade := fun r c hr hc => by
  obtain ⟨-, hcells⟩ := State.tableProgress_iff.mp h hrun hpf
  exact (hcells r c hr hc).value (by rw [hempty]; rfl)

/-! Runs in which the block alone moves. -/

/-- What every step keeps, a run keeps. -/
theorem run_keeps {M : Host.Core} {P : M.State → Prop} (hstep : ∀ {s t}, P s → M.step s = .next t → P t) (m : Nat)
    {s t : M.State} (hs : P s) (h : M.run m s = .next t) : P t := by
  induction m generalizing s with
  | zero => exact Host.Outcome.next.inj h ▸ hs
  | succ m ih =>
    rw [Host.Core.run] at h
    split at h
    · rename_i u hu
      exact ih (hstep hs hu) h
    · cases h
    · cases h

/-- The host has no access left, and the schedule names only turns of the block. -/
def State.BlockOnly (s : State) : Prop := s.host = [] ∧ ∀ turn ∈ s.sched, ∃ p, turn = .block p

namespace State.BlockOnly

theorem tail {s : State} (h : s.BlockOnly) (p : Nat × Nat) :
    ({ s with sched := s.sched.tail, pick := p } : State).BlockOnly :=
  ⟨h.1, fun turn hturn => h.2 turn (List.mem_of_mem_tail hturn)⟩

/-- While idle, nothing but the schedule and the agents' inputs moves on. -/
theorem step_idle {s : State} (h : s.BlockOnly) (hidle : s.phase = .idle) :
    ∃ p, step s = .next { s with sched := s.sched.tail, pick := p } := by
  obtain ⟨hhost, hsched⟩ := h
  cases hs : s.sched with
  | nil =>
    refine ⟨s.pick, ?_⟩
    have hturn : defaultTurn s = .host s.draw := if_neg (by simp [hidle])
    simp only [step, nextTurn, hs, hturn, takeTurn, hostTurn, hhost]
    rw [List.tail_nil, ← hs]
  | cons turn rest =>
    obtain ⟨p, rfl⟩ := hsched turn (hs ▸ List.mem_cons_self ..)
    exact ⟨p, step_block_idle hs hidle⟩

/-- While a command runs, each step is a block step of it (R240, R243). -/
theorem step_running {s : State} (h : s.BlockOnly) {i : Instr} (hrun : s.phase = .run i) :
    ∃ p, step s = .next (blockStep (workOf i) (finishOf i) { s with sched := s.sched.tail, pick := p }) := by
  obtain ⟨-, hsched⟩ := h
  cases hs : s.sched with
  | nil =>
    refine ⟨s.pick, ?_⟩
    have hturn : defaultTurn s = .block s.pick := if_pos (by simp [hrun])
    simp only [step, nextTurn, hs, hturn, takeTurn]
    rw [List.tail_nil, ← hs]
    exact blockTurn_running hrun
  | cons turn rest =>
    obtain ⟨p, rfl⟩ := hsched turn (hs ▸ List.mem_cons_self ..)
    exact ⟨p, step_block_running hs hrun⟩

end State.BlockOnly

/-- A block step leaves the host's program and the coming turns as they are. -/
theorem blockStep_agents (i : Instr) (s : State) :
    (blockStep (workOf i) (finishOf i) s).host = s.host ∧ (blockStep (workOf i) (finishOf i) s).sched = s.sched := by
  rcases blockStep_cases (workOf i) (finishOf i) s with ⟨-, he⟩ | ⟨-, t, hwork, he⟩ | ⟨-, -, he⟩
  · rw [he]
    exact ⟨rfl, rfl⟩
  · rw [he]
    cases i with
    | nop | add | sub | irred => cases hwork
    | mul =>
      obtain ⟨-, rfl⟩ := mulWork_some hwork
      exact ⟨rfl, rfl⟩
    | table =>
      obtain ⟨r, c, -, rfl⟩ := tableWork_some hwork
      unfold cellStep
      dsimp only
      split <;> exact ⟨rfl, rfl⟩
  · rw [he]
    cases i <;> exact ⟨rfl, rfl⟩

/-- A block step changes no byte outside the latched table (R82, R84). -/
theorem blockStep_read_outside {s : State} (hs : s.Coherent) (i : Instr) {a : Nat} (ha : inTable s a = false) :
    (blockStep (workOf i) (finishOf i) s).mem.read a = s.mem.read a := by
  rcases blockStep_mem hs.pending_wf i with hmem | ⟨-, r, c, hm, ht⟩
  · rw [hmem]
  · rw [ht]
    refine Memory.read_writeLE_other _ _ _ _ ?_
    by_contra hin
    obtain ⟨hr, hc⟩ := hs.pending_mem_lt hm
    have htable := cellAddr_inTable (j := a - cellAddr s.tableBase s.grade r c) hr hc (by omega)
    rw [Nat.add_sub_cancel' (by omega), ha] at htable
    cases htable

/-- `u` lies on a run of `s`'s TABLE in which the block alone moves: memory outside the table is that of `s`, and the TABLE is
still on its way, or has ended and left the whole table unless BERR is set. -/
structure TableRun (s u : State) : Prop where
  blockOnly : u.BlockOnly
  coherent : u.Coherent
  grade : u.grade = s.grade
  base : u.tableBase = s.tableBase
  outside : ∀ a, inTable s a = false → u.mem.read a = s.mem.read a
  stage : (u.phase = .run .table ∧ u.pf = false ∧ u.TableProgress) ∨
    (u.phase = .idle ∧ (u.status.berr = false → u.mem.HoldsTable s.tableBase s.grade))

namespace TableRun

/-- Taking a turn off the schedule, with its pick, is no change of the block. -/
theorem nextTurn {s u : State} (h : TableRun s u) (p : Nat × Nat) :
    TableRun s { u with sched := u.sched.tail, pick := p } :=
  have hu : SameBlock u { u with sched := u.sched.tail, pick := p } := rfl
  { h with blockOnly := h.blockOnly.tail p, coherent := hu.coherent h.coherent }

/-- A cell step writes inside the table, and the step that ends the TABLE comes with BERR or after the last cell. -/
theorem blockStep {s u : State} (h : TableRun s u) (hrun : u.phase = .run .table) :
    TableRun s (blockStep (workOf .table) (finishOf .table) u) := by
  obtain ⟨hpf, hprog⟩ : u.pf = false ∧ u.TableProgress := by
    obtain ⟨-, hstage⟩ | ⟨hidle, -⟩ := h.stage
    · exact hstage
    · simp [hrun] at hidle
  obtain ⟨hhost, hsched⟩ := blockStep_agents .table u
  obtain ⟨-, ⟨-, -, -, -, hln, hltb, -⟩, -, hend⟩ := blockStep_effect .table u
  refine ⟨?_, h.coherent.blockStep hrun, ?_, ?_, ?_, ?_⟩
  · rw [State.BlockOnly, hhost, hsched]
    exact h.blockOnly
  · rw [State.grade, hln]
    exact h.grade
  · rw [State.tableBase, hltb]
    exact h.base
  · intro a ha
    have hout : inTable u a = false := by rwa [inTable, h.base, h.grade]
    rw [blockStep_read_outside h.coherent .table hout, h.outside a ha]
  · rcases hend with ⟨hphase, hpf', -⟩ | ⟨hidle, -⟩
    · exact .inl ⟨hphase.trans hrun, hpf'.trans hpf, hprog.blockStep h.coherent hrun⟩
    · refine .inr ⟨hidle, fun hberr => ?_⟩
      rcases berr_or_empty_of_idle h.coherent.pending_wf hrun hpf hidle with hberr' | hempty
      · simp [hberr] at hberr'
      · rw [blockStep_mem_of_idle hrun hidle, ← h.base, ← h.grade]
        exact hprog.holdsTable hrun hpf hempty

theorem step {s u t : State} (h : TableRun s u) (hstep : step u = .next t) : TableRun s t := by
  obtain ⟨hrun, -⟩ | ⟨hidle, -⟩ := h.stage
  · obtain ⟨p, hp⟩ := h.blockOnly.step_running hrun
    cases hp.symm.trans hstep
    exact (h.nextTurn p).blockStep hrun
  · obtain ⟨p, hp⟩ := h.blockOnly.step_idle hidle
    cases hp.symm.trans hstep
    exact h.nextTurn p

/-- A running TABLE at the start of its block turns. -/
theorem start {s : State} (hs : s.Coherent) (hprog : s.TableProgress) (hrun : s.phase = .run .table) (hpf : s.pf = false)
    (hhost : s.host = []) (picks : List (Nat × Nat)) : TableRun s { s with sched := picks.map .block } := by
  have hu : SameBlock s { s with sched := picks.map .block } := rfl
  refine ⟨⟨hhost, fun turn hturn => ?_⟩, hu.coherent hs, rfl, rfl, fun _ _ => rfl, .inl ⟨hrun, hpf, hu.tableProgress hprog⟩⟩
  obtain ⟨p, -, hp⟩ := List.mem_map.mp hturn
  exact ⟨p, hp.symm⟩

theorem holdsTable {s t : State} (h : TableRun s t) (hidle : t.phase = .idle) (hberr : t.status.berr = false) :
    t.mem.HoldsTable s.tableBase s.grade := by
  obtain ⟨hrun, -⟩ | ⟨-, hholds⟩ := h.stage
  · simp [hidle] at hrun
  · exact hholds hberr

/-- Two ends of one TABLE without BERR: one table, and one memory outside it (R217). -/
theorem mem_eq {s t t' : State} (h : TableRun s t) (h' : TableRun s t') (hidle : t.phase = .idle) (hidle' : t'.phase = .idle)
    (hberr : t.status.berr = false) (hberr' : t'.status.berr = false) : t.mem = t'.mem := by
  refine Memory.ext h.coherent.mem_wf h'.coherent.mem_wf fun a => ?_
  cases ha : inTable s a with
  | true => exact (h.holdsTable hidle hberr).read_eq (h'.holdsTable hidle' hberr') ha
  | false => rw [h.outside a ha, h'.outside a ha]

end TableRun

end Sys2Proof.Machine

namespace Sys2Proof.Claims

open Sys2Proof Sys2Proof.Machine

/-- Settles O45: no cell is pending, so each holds its word, which completion leaves. -/
theorem completedTableHoldsEveryCell : Obligations.CompletedTableHoldsEveryCell := by
  intro s hprog hrun hpf hempty
  refine ⟨completed s, exec_table_completed hrun hpf hempty, rfl, rfl, rfl, fun r c j hr hc hj => ?_⟩
  exact Memory.read_of_readLE_word (hprog.holdsTable hrun hpf hempty r c hr hc) hj

/-- Settles O47: each run keeps `TableRun`, and its end without BERR fixes every byte of memory. -/
theorem cellOrderDoesNotShow : Obligations.CellOrderDoesNotShow := by
  intro s t t' picks picks' m m' hs hprog hrun hpf _ hhost h h' hidle hidle' hberr hberr'
  have hend := run_keeps TableRun.step m (.start hs hprog hrun hpf hhost picks) h
  have hend' := run_keeps TableRun.step m' (.start hs hprog hrun hpf hhost picks') h'
  exact hend.mem_eq hend' hidle hidle' hberr hberr'

end Sys2Proof.Claims
end

section
/-! Proofs about the command lifecycle: what a step makes of a command that is written or running, and how many block steps a
running command still takes. -/

namespace Sys2Proof.Machine

open Sys2Proof.Claims

/-! The turns taken when the schedule names no more (Log 2). -/

theorem step_default {s : State} (hs : s.sched = []) : step s = takeTurn (defaultTurn s) s := by
  simp only [step, nextTurn, hs]

/-- With no turn scheduled, an idle block leaves the move to the host, which takes its next access (R240). -/
theorem step_hostAccess_default {s : State} {op : HostOp} {ops : List HostOp} (hs : s.sched = []) (hidle : s.phase = .idle)
    (hh : s.host = op :: ops) : step s = hostAccess op { s with host := ops } := by
  have hturn : defaultTurn s = .host s.draw := if_neg (by simp [hidle])
  simp only [step_default hs, hturn, takeTurn, hostTurn, hh]

/-- With no turn scheduled, a running command takes a block step, on the pick in the state (R251). -/
theorem step_running_default {s : State} {i : Instr} (hs : s.sched = []) (hrun : s.phase = .run i) :
    step s = .next (blockStep (workOf i) (finishOf i) s) := by
  have hturn : defaultTurn s = .block s.pick := if_pos (by simp [hrun])
  rw [step_default hs, hturn]
  exact blockTurn_running hrun

theorem acceptWord_command {w : Word} {i : Instr} (hw : decode w = .command i) (s : State) : acceptWord w s = exec i s := by
  simp only [acceptWord, hw]

/-- The host's write of a legal word to CMD while idle is `exec` of its command (R241). -/
theorem hostAccess_cmd_idle {w : Word} {i : Instr} {s : State} (hidle : s.phase = .idle) (hw : decode w = .command i) :
    hostAccess (.write 0x00 4 w) s = exec i s := by
  rw [hostAccess_write w s rfl (by decide)]
  exact (hostWrite_cmd_idle w hidle).trans (acceptWord_command hw s)

/-! The bound on a running command's block steps (R251). -/

theorem stepsLeft_pos (i : Instr) (s : State) : 1 ≤ stepsLeft i s := by
  unfold stepsLeft
  split
  · exact le_refl 1
  · cases i <;> exact Nat.le_add_left ..

theorem stepsLeft_mul {s : State} (hpf : s.pf = false) : stepsLeft .mul s = iterations s.grade - s.k + 1 :=
  if_neg (by simp [hpf])

theorem stepsLeft_table {s : State} (hpf : s.pf = false) : stepsLeft .table s = s.pending.size + 1 :=
  if_neg (by simp [hpf])

/-- A work step uses up one of the steps left, or it is BERR and ends the command (R243, R216). -/
theorem workOf_stepsLeft {s t : State} {i : Instr} (hwf : s.pending.wf) (hpf : s.pf = false) (hw : workOf i s = some t) :
    t.phase = .idle ∨ (t.phase = s.phase ∧ stepsLeft i t + 1 = stepsLeft i s) := by
  cases i with
  | nop | add | sub | irred => cases hw
  | mul =>
    obtain ⟨hk, rfl⟩ := mulWork_some hw
    refine .inr ⟨mulIteration_phase s, ?_⟩
    rw [stepsLeft_mul hpf, stepsLeft_mul (s := mulIteration s) hpf, mulIteration_grade, mulIteration_k]
    omega
  | table =>
    obtain ⟨r, c, -, hm, ⟨-, rfl⟩ | ⟨-, rfl⟩⟩ := tableWork_cases hwf hw
    · refine .inr ⟨rfl, ?_⟩
      have hsize : (s.pending.remove r c).size + 1 = s.pending.size := CellSet.size_remove hwf hm
      rw [stepsLeft_table hpf, ← hsize]
      exact congrArg (· + 1) (stepsLeft_table hpf)
    · exact .inl (raise_berr_phase s)

/-- A block step completes the running command, or leaves it one step less (R243, R244). -/
theorem blockStep_stepsLeft {s : State} {i : Instr} (hwf : s.pending.wf) (hrun : s.phase = .run i) :
    (blockStep (workOf i) (finishOf i) s).phase = .idle ∨
      ((blockStep (workOf i) (finishOf i) s).phase = .run i ∧
        stepsLeft i (blockStep (workOf i) (finishOf i) s) + 1 = stepsLeft i s) := by
  rcases blockStep_cases (workOf i) (finishOf i) s with ⟨-, he⟩ | ⟨hpf, t, hw, he⟩ | ⟨-, -, he⟩
  · exact .inl (he ▸ complete_phase s)
  · rw [he, ← hrun]
    exact workOf_stepsLeft hwf hpf hw
  · exact .inl (he ▸ complete_phase _)

/-- A block turn completes the running command and sets DONE, or leaves it one step less (R245, R251). -/
theorem step_stepsLeft {s : State} {i : Instr} {p : Nat × Nat} {rest : List Turn} (hs : s.Coherent) (hrun : s.phase = .run i)
    (hsched : s.sched = .block p :: rest) :
    ∃ t, step s = .next t ∧ t.Coherent ∧ t.sched = rest ∧
      ((t.phase = .idle ∧ t.status.done = true) ∨ (t.phase = .run i ∧ stepsLeft i t + 1 = stepsLeft i s)) := by
  have hstep := step_block_running hsched hrun
  refine ⟨_, hstep, (step_move hstep).coherent hs, (blockStep_agents i _).2, ?_⟩
  have hwf : ({ s with sched := rest, pick := p } : State).pending.wf := hs.pending_wf
  exact (blockStep_stepsLeft hwf hrun).imp_left fun hidle => ⟨hidle, done_of_idle hrun hidle⟩

theorem run_succ {M : Host.Core} {s t : M.State} (h : M.step s = .next t) (m : Nat) : M.run (m + 1) s = M.run m t := by
  rw [Host.Core.run, h]

/-- By induction on the turns of the block: each completes the command or leaves one step less to take (R251). -/
theorem exists_completing_run {i : Instr} (picks : List (Nat × Nat)) {s : State} (hs : s.Coherent) (hrun : s.phase = .run i)
    (hsched : s.sched = picks.map .block) (hlen : stepsLeft i s ≤ picks.length) :
    ∃ m t, 1 ≤ m ∧ m ≤ stepsLeft i s ∧ core.run m s = .next t ∧ t.phase = .idle ∧ t.status.done = true := by
  have hpos := stepsLeft_pos i s
  induction picks generalizing s with
  | nil => exact absurd (hpos.trans hlen) (by simp)
  | cons p rest ih =>
    obtain ⟨u, hstep, hu, husched, hend | ⟨hurun, hleft⟩⟩ := step_stepsLeft hs hrun hsched
    · exact ⟨1, u, le_refl 1, hpos, run_succ (M := core) hstep 0, hend⟩
    · rw [List.length_cons] at hlen
      obtain ⟨m, t, -, hm, hrest, hend⟩ := ih hu hurun husched (by omega) (stepsLeft_pos i u)
      exact ⟨m + 1, t, by omega, by omega, (run_succ (M := core) hstep m).trans hrest, hend⟩

end Sys2Proof.Machine

namespace Sys2Proof.Claims

open Sys2Proof Sys2Proof.Machine

/-- Settles O44: a block step completes the command or lowers `stepsLeft` by 1, whatever it picks. -/
theorem runningCommandsCompleteInBoundedSteps : Obligations.RunningCommandsCompleteInBoundedSteps :=
  fun _ _ picks hs hrun hsched hlen => exists_completing_run picks hs hrun hsched hlen

/-- Settles O4: the host's turn is its write of CMD, and an idle block executes the decoded command. -/
theorem stepRunsTheWrittenCommand : Obligations.StepRunsTheWrittenCommand := by
  intro s i w ops hidle hh hw
  refine ⟨fun d rest hs => ?_, fun hs => ?_⟩
  · rw [step_hostAccess hs hh]
    exact hostAccess_cmd_idle hidle hw
  · rw [step_hostAccess_default hs hidle hh]
    exact hostAccess_cmd_idle hidle hw

/-- Settles O5: the step and `exec` are the same block step. -/
theorem stepRunsTheRunningCommand : Obligations.StepRunsTheRunningCommand := by
  intro s i hrun
  refine ⟨fun p rest hs => ?_, fun hs => ?_⟩
  · rw [step_block_running hs hrun, exec_running (s := { s with sched := rest, pick := p }) hrun]
  · rw [step_running_default hs hrun, exec_running hrun]

/-- Settles O9: NOP has no check, no working registers, no work step and no finish of its own. -/
theorem nopRunsTheLifecycle : Obligations.NopRunsTheLifecycle := fun _ =>
  ⟨fun hidle => exec_accepted hidle (.inr rfl), fun hrun hpf => exec_completed hrun hpf rfl⟩

/-- Settles O21: the lost command only raises BSYERR. -/
theorem commandIsLostWhileAnotherRuns : Obligations.CommandIsLostWhileAnotherRuns :=
  fun _ _ _ hrun hij => exec_other hrun hij.symm

end Sys2Proof.Claims
end

section
/-! Proofs about the exceptional paths of the lifecycle: a command whose precondition is found to fail, and an idle block. -/

namespace Sys2Proof.Machine

open Sys2Proof.Claims

/-! The failed precondition (R264). -/

/-- A command that is found to fail its check is accepted with pf set, and sets up no working registers (R241, R262). -/
theorem exec_rejected {i : Instr} {s : State} (hidle : s.phase = .idle) (hcheck : s.cfg.checkPrecond = true)
    (hfails : precond i s.n.toNat s.ip = false) : exec i s = .next { accepted i s with pf := true } := by
  rw [exec_idle i hidle]
  rcases accept_cases i (initOf i) s with ⟨-, -, he⟩ | ⟨hholds, -⟩
  · rw [he]
    rfl
  · exact absurd ⟨hcheck, hfails⟩ hholds

/-- With pf = 1 the one block step of a running command is its completion, whatever its work and its finish (R243). -/
theorem exec_complete_of_pf {i : Instr} {s : State} (hrun : s.phase = .run i) (hpf : s.pf = true) :
    exec i s = .next (complete s) := by
  rw [exec_running hrun, blockStep, if_pos hpf]

/-- Completion with pf = 1 sets PERR beside DONE, and changes nothing else but the phase and pf (R245, R262). -/
theorem complete_perr {s : State} (hpf : s.pf = true) :
    complete s = { s with status := { s.status with done := true, perr := true }, phase := .idle, pf := false } := by
  simp [complete, hpf]

theorem initOf_pf (i : Instr) (s : State) : (initOf i s).pf = s.pf := by
  cases i <;> rfl

/-! The idle block (R276). -/

/-- With no turn scheduled, an idle block leaves the turn to the host (R240; Log 2). -/
theorem step_idle_default {s : State} (hs : s.sched = []) (hidle : s.phase = .idle) : step s = hostTurn s := by
  have hturn : defaultTurn s = .host s.draw := if_neg (by simp [hidle])
  rw [step_default hs, hturn]
  rfl

/-- A host whose program is over does nothing in its turn (R311). -/
theorem hostTurn_nil {s : State} (hh : s.host = []) : hostTurn s = .next s := by
  simp only [hostTurn, hh]

end Sys2Proof.Machine

namespace Sys2Proof.Claims

open Sys2Proof Sys2Proof.Machine

/-- Settles O19: the listed failures are those of `precond`; a command found to fail has only its completion left, and any other
starts with pf = 0. -/
theorem failedPreconditionEndsWithPerr : Obligations.FailedPreconditionEndsWithPerr := by
  intro s i hidle hcheck fails
  have hfails : fails ↔ ¬ precond i s.n.toNat s.ip = true := by
    cases i with
    | nop | add | sub => exact iff_of_false id (not_not_intro rfl)
    | mul => exact not_congr precond_mul_iff.symm
    | irred | table => exact not_congr legalGrade_iff.symm
  rw [hfails, not_not, Bool.not_eq_true]
  refine ⟨fun hpre => ⟨exec_rejected hidle hcheck hpre, ?_⟩, fun hpre => ?_⟩
  · rw [exec_complete_of_pf (s := { accepted i s with pf := true }) rfl rfl, complete_perr rfl]
    rfl
  · exact ⟨_, exec_accepted hidle (.inr hpre), initOf_pf i _⟩

/-- Settles O6: a block turn finds no command to step, and the turn of a final state falls to a host with no access left. -/
theorem idleBlockTakesNoStep : Obligations.IdleBlockTakesNoStep := fun _ hidle =>
  ⟨fun _ _ hs => step_block_idle hs hidle, fun hs ⟨hhost, _⟩ => (step_idle_default hs hidle).trans (hostTurn_nil hhost)⟩

end Sys2Proof.Claims
end

section
/-! Proofs about a reset event. -/

namespace Sys2Proof.Machine

/-- A reset turn is the platform's reset event, of a state that has only lost the turn (R290). -/
theorem step_reset {s : State} {rest : List Turn} (hs : s.sched = .reset :: rest) :
    step s = .next (platformReset { s with sched := rest }) := by
  unfold step nextTurn
  rw [hs]
  rfl

end Sys2Proof.Machine

namespace Sys2Proof.Claims

open Sys2Proof Sys2Proof.Machine

/-- Settles O8: the step is the reset event, which puts each register and latch at its launch value and spares memory. -/
theorem resetAbandonsTheCommand : Obligations.ResetAbandonsTheCommand := fun s rest hs =>
  ⟨platformReset { s with sched := rest }, step_reset hs, platformReset_phase _, platformReset_status _,
    platformReset_result _, ⟨rfl, rfl, rfl, rfl, rfl⟩, ⟨rfl, rfl, rfl, rfl, rfl, rfl⟩,
    ⟨rfl, rfl, rfl, rfl, rfl, rfl, rfl⟩, platformReset_cfg _, platformReset_mem _,
    fun a => congrArg (Memory.read · a) (platformReset_mem _)⟩

end Sys2Proof.Claims
end
